-- ==== Sys2Proof/Word.lean ====
section
/-! DEFINITION. The value types of 00_scope.md rule R12: `bit`, `u8` and `u16`, all unsigned. -/

namespace Sys2Proof

/-- `bit` (R12): `false` is 0 and `true` is 1. -/
abbrev Bit := Bool

/-- `u8` (R12): an unsigned 8-bit value, the unit of transfer (R6, R56). -/
abbrev U8 := BitVec 8

/-- `u16` (R12): an unsigned 16-bit value. -/
abbrev U16 := BitVec 16

end Sys2Proof
end

