-- ==== Sys2Proof/Config.lean ====
section
/-! DEFINITION. The parameters of 00_scope.md rule R7, fixed for one engine (R35), and the free value of the target's
unsettled answers (R34). Each is an opaque constant: nothing proves a value of it, so a statement holds for every value. -/

namespace Sys2Proof

/-- The four lines (R27). -/
inductive Line where
  /-- reset -/
  | rst
  /-- clock -/
  | dc
  /-- data-out -/
  | ddo
  /-- data-in -/
  | ddi
deriving DecidableEq, Repr

/-- The three kinds of hold (R9, R212). -/
inductive HoldKind where
  | tick
  | settle
  | entry
deriving DecidableEq, Repr

/-- Four distinct platform pins for the four roles (R7, R59). -/
structure PinMap where
  rst : Nat := 0
  dc : Nat := 1
  ddo : Nat := 2
  ddi : Nat := 3
  distinct : [rst, dc, ddo, ddi].Nodup := by decide
deriving DecidableEq, Repr, Inhabited

/-- The platform pin that plays a role. -/
def PinMap.pin (m : PinMap) : Line → Nat
  | .rst => m.rst
  | .dc => m.dc
  | .ddo => m.ddo
  | .ddi => m.ddi

/-- A non-empty list of bytes (R7). -/
structure NonemptyBytes where
  first : U8
  rest : List U8
deriving DecidableEq, Repr, Inhabited

/-- The bytes in wire order. -/
def NonemptyBytes.bytes (f : NonemptyBytes) : List U8 := f.first :: f.rest

/-- `PIN_MAP` (R7, D25). No rule depends on it. -/
opaque Config.pinMap : PinMap

/-- `T_TICK`, `T_SETTLE` and `T_ENTRY` (R7, D20): durations above zero. No rule depends on them. -/
opaque Config.duration : HoldKind → ℕ+

/-- `PRIM_CLEARS_ERROR` (R7, D9): whether an accepted direct call of a primitive clears `errorFlag`. -/
opaque Config.primClearsError : Bool

/-- `MASS_ERASE_FRAME` (R7, D16). -/
opaque Config.massEraseFrame : NonemptyBytes

/-- `MASS_ERASE_READS` (R7, D16), at least 1. -/
opaque Config.massEraseReads : ℕ+

/-- FREE VALUE (R34, U4; log entry 2): the `n`-th answer of DD_I that nothing in the state has settled. -/
opaque Config.ddiAnswer : Nat → Bit

end Sys2Proof
end

