-- ==== Sys2Proof/Syntax.lean ====
section
/-! DEFINITION. The host operations of 30_encoding.md rule R79 and the pseudo-operation of rule R80, one constructor
per row of spec/opcode_table.json, in the table's order. -/

namespace Sys2Proof

/-- Which side drives the shared data line (R15, R23): `drive` is the engine, `sample` the target. -/
inductive Direction where
  | drive
  | sample
deriving DecidableEq, Repr

/-- A host operation with its arguments (R70, R79). An operation is selected by its constructor. -/
inductive Instr where
  /-- `setDirection(d)`, R101. -/
  | setDirection (d : Direction)
  /-- `writeByte(v)`, R102. -/
  | writeByte (v : U8)
  /-- `readByte()`, R103. -/
  | readByte
  /-- `awaitReadable()`, R104. -/
  | awaitReadable
  /-- `activate(on)`, R131. -/
  | activate (on : Bool)
  /-- `enter()`, R132. -/
  | enter
  /-- `exit()`, R133. -/
  | exit
  /-- `getError()`, R134. -/
  | getError
  /-- `readConfig()`, R161. -/
  | readConfig
  /-- `writeConfig(c)`, R162. -/
  | writeConfig (c : U8)
  /-- `exec1(oc0)`, R163. -/
  | exec1 (oc0 : U8)
  /-- `exec2(oc0, oc1)`, R164. -/
  | exec2 (oc0 oc1 : U8)
  /-- `exec3(oc0, oc1, oc2)`, R165. -/
  | exec3 (oc0 oc1 oc2 : U8)
  /-- `execImm16(oc0, c0)`, R166. -/
  | execImm16 (oc0 : U8) (c0 : U16)
  /-- `getChipId()`, R167. -/
  | getChipId
  /-- `getPC()`, R168. -/
  | getPC
  /-- `getStatus()`, R169. -/
  | getStatus
  /-- `step()`, R170. -/
  | step
  /-- `massErase()`, R171. -/
  | massErase
  /-- `exec(ocs)`, R172. -/
  | exec (ocs : List U8)
deriving DecidableEq, Repr

end Sys2Proof
end

