-- ==== Sys2Proof/Machine/Operands.lean ====
section
/-! DEFINITION. Operand and result assembly: 20_memory.md rules R52 to R54, 30_encoding.md rules R74, R75 and R80. -/

namespace Sys2Proof.Machine

/-- `high(c0)` = `c0[15:8]` (R54, R74). -/
def hiByte (c : U16) : U8 := c.extractLsb' 8 8

/-- `low(c0)` = `c0[7:0]` (R54, R74). -/
def loByte (c : U16) : U8 := c.extractLsb' 0 8

/-- A two-byte result read as `b0` then `b1`: `(zext_16(b0) << 8) | zext_16(b1)` (R53, R75). -/
def assemble16 (b0 b1 : U8) : U16 := (b0.zeroExtend 16 <<< 8) ||| b1.zeroExtend 16

/-- The bits `v[n-1], ..., v[0]`. -/
def bitsBelow (v : U8) : Nat → List Bit
  | 0 => []
  | n + 1 => v.getLsbD n :: bitsBelow v n

/-- The bits of a byte in wire order, most significant first (R52). -/
def wireBits (v : U8) : List Bit := bitsBelow v 8

/-- `(r << 1) | b` on a `u8` (R103). -/
def shiftInBit (r : U8) (b : Bit) : U8 := (r <<< 1) ||| (BitVec.ofBool b).zeroExtend 8

/-- The one-byte result of a transaction: the last byte read (R75, R171); a transaction reads at least one. -/
def lastByteRead (r : List U8) : U8 := r.getLastD 0

/-- The two-byte result of a transaction that read `[r[0], r[1]]` (R75, R167, R168). -/
def wordRead (r : List U8) : U16 := assemble16 (r.getD 0 0) (r.getD 1 0)

/-- The frame of `exec(ocs)`: the framing byte tags the number of opcode bytes, 1 to 3 (R80, R172). -/
def execFrame : List U8 → Option (List U8)
  | [oc0] => some [0x51#8, oc0]
  | [oc0, oc1] => some [0x52#8, oc0, oc1]
  | [oc0, oc1, oc2] => some [0x53#8, oc0, oc1, oc2]
  | _ => none

end Sys2Proof.Machine
end

