-- ==== Sys2Proof/WellFormed.lean ====
section
/-! DEFINITION. Which operation terms are calls the source describes. Every argument is in its range by its type
(30_encoding.md rule R79: no argument value is reserved, R78); the one check is the length of `exec`'s opcode list. -/

namespace Sys2Proof

/-- R70, R78, R80: every term is well-formed but an `exec` of 0 or more than 3 opcode bytes, which has no frame. -/
def Instr.wellFormed : Instr → Bool
  | .setDirection _ | .writeByte _ | .readByte | .awaitReadable | .activate _ | .enter | .exit | .getError
  | .readConfig | .writeConfig _ | .exec1 _ | .exec2 _ _ | .exec3 _ _ _ | .execImm16 _ _ | .getChipId | .getPC
  | .getStatus | .step | .massErase => true
  | .exec ocs => decide (1 ≤ ocs.length ∧ ocs.length ≤ 3)

end Sys2Proof
end

