-- ==== Sys2Proof/Decode.lean ====
section
/-! DEFINITION. The wire frames of 30_encoding.md rule R72, read and written. On the host side nothing is decoded (R70):
an operation is selected by its constructor. What is decoded is the wire, by the reader of rule R76, whose frame lengths
follow from the framing byte; the encoder is the engine's own side of the same table. -/

namespace Sys2Proof

open Sys2Proof.Machine

/-- Why a byte sequence begins with no frame of the table. -/
inductive DecodeReject where
  /-- There is no byte to read. -/
  | noByte
  /-- The first byte is no framing byte of R72 (R78, R81). -/
  | notAFramingByte (b : U8)
  /-- The framing byte's frame is longer than what is there (R73, R76). -/
  | truncated (b : U8)
deriving DecidableEq, Repr

/-- R72, R73, R76: the frame at the head of a byte sequence, and the bytes after it. All eight bits of the framing byte
are matched (R81). `0x53` reads as `exec3`; the target cannot tell `execImm16` apart (R77; log entry 10). -/
def decode : List U8 → Except DecodeReject (Instr × List U8)
  | [] => .error .noByte
  | f :: rest =>
    if f = 0x48#8 then .ok (.exit, rest)
    else if f = 0x20#8 then .ok (.readConfig, rest)
    else if f = 0x68#8 then .ok (.getChipId, rest)
    else if f = 0x28#8 then .ok (.getPC, rest)
    else if f = 0x30#8 then .ok (.getStatus, rest)
    else if f = 0x58#8 then .ok (.step, rest)
    else if f = 0x18#8 then
      match rest with
      | c :: r => .ok (.writeConfig c, r)
      | _ => .error (.truncated f)
    else if f = 0x51#8 then
      match rest with
      | a :: r => .ok (.exec1 a, r)
      | _ => .error (.truncated f)
    else if f = 0x52#8 then
      match rest with
      | a :: b :: r => .ok (.exec2 a b, r)
      | _ => .error (.truncated f)
    else if f = 0x53#8 then
      match rest with
      | a :: b :: c :: r => .ok (.exec3 a b c, r)
      | _ => .error (.truncated f)
    else .error (.notAFramingByte f)

/-- The reader of the wire that also knows `MASS_ERASE_FRAME`: it is looked for where the table has no framing byte
(log entry 11). -/
def decodeWire (eraseFrame : List U8) (bytes : List U8) : Except DecodeReject (Instr × List U8) :=
  match decode bytes with
  | .error (.notAFramingByte b) =>
    if eraseFrame.isPrefixOf bytes then .ok (.massErase, bytes.drop eraseFrame.length)
    else .error (.notAFramingByte b)
  | answer => answer

/-- R72: the bytes an accepted operation writes on the wire, the framing byte first; `writeByte(v)` writes the raw byte
(R78); the other host operations write none. -/
def encodeWith (eraseFrame : List U8) : Instr → List U8
  | .setDirection _ => []
  | .writeByte v => [v]
  | .readByte => []
  | .awaitReadable => []
  | .activate _ => []
  | .enter => []
  | .exit => [0x48#8]
  | .getError => []
  | .readConfig => [0x20#8]
  | .writeConfig c => [0x18#8, c]
  | .exec1 oc0 => [0x51#8, oc0]
  | .exec2 oc0 oc1 => [0x52#8, oc0, oc1]
  | .exec3 oc0 oc1 oc2 => [0x53#8, oc0, oc1, oc2]
  | .execImm16 oc0 c0 => [0x53#8, oc0, hiByte c0, loByte c0]
  | .getChipId => [0x68#8]
  | .getPC => [0x28#8]
  | .getStatus => [0x30#8]
  | .step => [0x58#8]
  | .massErase => eraseFrame
  | .exec [oc0] => [0x51#8, oc0]
  | .exec [oc0, oc1] => [0x52#8, oc0, oc1]
  | .exec [oc0, oc1, oc2] => [0x53#8, oc0, oc1, oc2]
  | .exec _ => []

/-- The encoder of this engine: `MASS_ERASE_FRAME` is its parameter (R7). -/
def encode (i : Instr) : List U8 := encodeWith Config.massEraseFrame.bytes i

/-- The operation a reader of the wire sees for a host operation that sends a frame of the table: itself, but `execImm16`
and `exec` are spellings of `exec1`, `exec2` and `exec3` (R77, R80). None for an operation without such a frame. -/
def Instr.onWire : Instr → Option Instr
  | .exit => some .exit
  | .readConfig => some .readConfig
  | .writeConfig c => some (.writeConfig c)
  | .exec1 oc0 => some (.exec1 oc0)
  | .exec2 oc0 oc1 => some (.exec2 oc0 oc1)
  | .exec3 oc0 oc1 oc2 => some (.exec3 oc0 oc1 oc2)
  | .execImm16 oc0 c0 => some (.exec3 oc0 (hiByte c0) (loByte c0))
  | .getChipId => some .getChipId
  | .getPC => some .getPC
  | .getStatus => some .getStatus
  | .step => some .step
  | .exec [oc0] => some (.exec1 oc0)
  | .exec [oc0, oc1] => some (.exec2 oc0 oc1)
  | .exec [oc0, oc1, oc2] => some (.exec3 oc0 oc1 oc2)
  | .exec _ => none
  | .setDirection _ | .writeByte _ | .readByte | .awaitReadable | .activate _ | .enter | .getError | .massErase => none

/-- The operations a reader of the wire sees in a record of written bytes, `fuel` bytes of it at most; a byte that begins no
frame is passed over (log entry 14). -/
def wireOps (eraseFrame : List U8) : (fuel : Nat) → List U8 → List Instr
  | 0, _ => []
  | fuel + 1, bytes =>
    match decodeWire eraseFrame bytes with
    | .ok (i, rest) => i :: wireOps eraseFrame fuel rest
    | .error _ =>
      match bytes with
      | [] => []
      | _ :: rest => wireOps eraseFrame fuel rest

/-- The operand of the last write-config frame among the operations seen (D27 (b)). -/
def lastConfigOperand : List Instr → Option U8
  | [] => none
  | i :: rest =>
    match lastConfigOperand rest, i with
    | some c, _ => some c
    | none, .writeConfig c => some c
    | none, _ => none

/-- What the config fixture answers after a record of written bytes (D27 (b)): the last configuration operand, when the last
frame reads or writes the configuration; nothing is said of any other frame. -/
def configEchoByte (eraseFrame : List U8) (written : List U8) : Option U8 :=
  let ops := wireOps eraseFrame written.length written
  match ops.getLast? with
  | some .readConfig => lastConfigOperand ops
  | some (.writeConfig _) => lastConfigOperand ops
  | _ => none

/-- The `n` bytes of a word from byte `k` on, the byte of bits 7..0 first. -/
def tableBytes (w : Nat) : (k n : Nat) → List U8
  | _, 0 => []
  | k, n + 1 => BitVec.ofNat 8 (w / 2 ^ (8 * k)) :: tableBytes w (k + 1) n

/-- The instruction the decoder reads from a word of spec/opcode_table.json's numbering: bits 7..0 are the first byte on the
wire, bits 15..8 the second, up to the longest frame (4 bytes, R73); the bits above `nbits` are 0. -/
def decodeTableWord (nbits w : Nat) : Option Instr :=
  match decode (tableBytes (w % 2 ^ nbits) 0 4) with
  | .ok (i, _) => some i
  | .error _ => none

end Sys2Proof
end

