-- ==== Sys2Proof/Machine/State.lean ====
section
/-! DEFINITION. The engine's state (10_state.md rules R20 to R31), the operation in flight (R33), what the model exposes of
each operation (00_scope.md rule R9), and the environment's side as data: the host's calls to come and the target's answers.
The engine has no registers, no program counter and no memory (R32, R50). -/

namespace Sys2Proof.Machine

/-- The two pin modes (R9, R26): a driven output, or a high-impedance input with no pull. -/
inductive PinMode where
  | output
  | input
deriving DecidableEq, Repr

/-- `PinConfig` (R26). The level of an input is not driven and irrelevant to every rule. -/
structure PinConfig where
  mode : PinMode
  level : Bit
deriving DecidableEq, Repr

/-- The configuration of the four lines (R26, R27). -/
structure Pins where
  rst : PinConfig
  dc : PinConfig
  ddo : PinConfig
  ddi : PinConfig
deriving DecidableEq, Repr

/-- The event alphabet of R9. -/
inductive Event where
  /-- `M(p, m)` -/
  | pinMode (p : Line) (m : PinMode)
  /-- `S(p, l)` -/
  | pinSet (p : Line) (l : Bit)
  /-- `R(p) = b` -/
  | pinSample (p : Line) (b : Bit)
  /-- `H(k)` -/
  | hold (k : HoldKind)
deriving DecidableEq, Repr

/-- An operation's result value (R9, R79). -/
inductive Result where
  /-- The operation has no result. -/
  | nothing
  /-- A `u8`. -/
  | byte (v : U8)
  /-- A `u16`. -/
  | word (v : U16)
deriving DecidableEq, Repr

/-- How a transaction ends once its bytes are read (R160). -/
inductive Finish where
  /-- The result is the last byte read (R161 to R166, R169 to R171). -/
  | lastByte
  /-- The result is the two bytes read, high byte first (R167, R168). -/
  | word16
  /-- The byte read is dropped, the session is left and the result is 0 (R133). -/
  | leaveSession
deriving DecidableEq, Repr

/-- An operation in flight: it waits in the loop of `awaitReadable` (R33, R104, R206). -/
inductive InFlight where
  /-- A direct call of `awaitReadable`. -/
  | handshake
  /-- A transaction that still reads `reads` bytes (R160). -/
  | transaction (reads : Nat) (fin : Finish)
deriving DecidableEq, Repr

/-- What settles the target's answers. -/
inductive Fixture where
  /-- A target at the pins: the answers queued in `Target.answers`, nothing else (R8, R34). -/
  | pins
  /-- The byte-stream adapter and the rest of its script (R213, D19). -/
  | adapter (script : List U8)
  /-- The round-trip fixture: each byte read is the last byte written (D27 (a)). -/
  | roundTrip
  /-- The config fixture: the operand of the last write-config frame (D27 (b)). -/
  | configEcho
deriving DecidableEq, Repr

/-- The environment's side of DD_I (R8, R34): not engine state. -/
structure Target where
  fixture : Fixture
  /-- The answers already settled, the next sample's first. -/
  answers : List Bit
  /-- How many free answers (`Config.ddiAnswer`) have been drawn. -/
  draws : Nat
deriving DecidableEq, Repr

/-- No instruction of this model ends in a fault: the engine reports errors by a flag and a result and "never by throwing or
aborting" (R201), and it detects no hardware fault (R205). So the type has no constructor. -/
inductive Fault
deriving DecidableEq, Repr

/-- The reasons a step can have no meaning. A call outside the source's contract is none of them: the spec gives it an effect,
the mark `refused` (R31, R209). -/
inductive Refusal where
  /-- Raised by an arm of `exec` whose instruction has no meaning yet (there is none left); safe. -/
  | notModelled (mnemonic : String)
deriving DecidableEq, Repr

end Sys2Proof.Machine

namespace Sys2Proof.Machine

/-- The machine's state. -/
structure State where
  /-- R21: whether the engine may drive the lines. -/
  active : Bool
  /-- R22: whether a debug session is open. -/
  inSession : Bool
  /-- R23: who drives the shared data line. -/
  direction : Direction
  /-- R24: 0 none, 1 inactive, 2 not in session. -/
  errorFlag : U8
  /-- R26: the four lines. -/
  pins : Pins
  /-- R31: a call outside the contract has been made. -/
  refused : Bool
  /-- R33: the operation in flight, if one waits for the target. -/
  inFlight : Option InFlight
  /-- R9: the result of the last operation that returned. -/
  result : Result
  /-- R9, R60: the pin events, in order. -/
  trace : List Event
  /-- R213: the bytes of accepted `writeByte` calls, in order. -/
  written : List U8
  /-- R8, R34: the environment's side of DD_I. -/
  target : Target
  /-- R79, D26: the host's calls still to come; the host's, not the engine's. -/
  calls : List Instr
deriving DecidableEq, Repr

/-- R36, R230, R231: the engine after construction, whose trace is the seven construction events. DD_I's level is not driven
(DESIGN CHOICE, log entry 6); the environment's fields are the model's own (log entries 2 and 5). -/
def State.reset : State where
  active := true
  inSession := false
  direction := .drive
  errorFlag := 0
  pins :=
    { rst := { mode := .output, level := false }
      dc := { mode := .output, level := false }
      ddo := { mode := .output, level := false }
      ddi := { mode := .input, level := false } }
  refused := false
  inFlight := none
  result := .nothing
  trace :=
    [.pinMode .rst .output, .pinSet .rst false, .pinMode .dc .output, .pinSet .dc false,
      .pinMode .ddo .output, .pinSet .ddo false, .pinMode .ddi .input]
  written := []
  target := { fixture := .pins, answers := [], draws := 0 }
  calls := []

end Sys2Proof.Machine
end

