-- ==== Sys2Proof/Machine/Flags.lean ====
section
/-! DEFINITION. The error flag: its codes (10_state.md rule R24, 60_exceptions.md rule R200), the precondition checks that
write it (rules R202, R203) and the calls that clear it (41_session.md rule R135). -/

namespace Sys2Proof.Machine

/-- No error (R24). -/
def errNone : U8 := 0#8

/-- `EngineInactive` (R24, R200). -/
def errInactive : U8 := 1#8

/-- `NotInSession` (R24, R200). -/
def errNotInSession : U8 := 2#8

/-- The check of an operation that needs the engine active: the code it is rejected with, if it is (R202). -/
def activeCheck (s : State) : Option U8 :=
  if s.active then none else some errInactive

/-- The checks of an operation that needs a session: `active`, then `inSession` (R202, R203). -/
def sessionCheck (s : State) : Option U8 :=
  if s.active then (if s.inSession then none else some errNotInSession) else some errInactive

/-- An accepted call of `activate`, `enter`, `exit` or the Instruction Layer clears the flag (R131, R135). -/
def clearError (s : State) : State := { s with errorFlag := errNone }

/-- Whether an accepted direct call of a primitive clears the flag is `PRIM_CLEARS_ERROR` (R135, D9). -/
def clearErrorIf (clears : Bool) (s : State) : State :=
  if clears then clearError s else s

end Sys2Proof.Machine
end

