-- ==== Sys2Proof/Machine/Ops.lean ====
section
/-! DEFINITION. The named operations every meaning is written from: the pseudocode primitives of 00_scope.md rule R13, the
clock pulse (40_bit_transfer.md rule R100), the bodies of the Bit-Transfer primitives (R101 to R104) as internal calls run them
(R11), the transaction (42_instruction.md rule R160), and the one way a call is rejected (60_exceptions.md rule R201) or
refused (R209). -/

namespace Sys2Proof.Machine

/-! ### Pins and events -/

/-- `PinMode(p, m)` sets the mode, `PinSet(p, l)` the level; the other events change no pin (R26). -/
def Pins.apply (ps : Pins) : Event → Pins
  | .pinMode .rst m => { ps with rst := { ps.rst with mode := m } }
  | .pinMode .dc m => { ps with dc := { ps.dc with mode := m } }
  | .pinMode .ddo m => { ps with ddo := { ps.ddo with mode := m } }
  | .pinMode .ddi m => { ps with ddi := { ps.ddi with mode := m } }
  | .pinSet .rst l => { ps with rst := { ps.rst with level := l } }
  | .pinSet .dc l => { ps with dc := { ps.dc with level := l } }
  | .pinSet .ddo l => { ps with ddo := { ps.ddo with level := l } }
  | .pinSet .ddi l => { ps with ddi := { ps.ddi with level := l } }
  | .pinSample _ _ => ps
  | .hold _ => ps

/-- Emit one event: it goes to the end of the trace and takes effect on the pins (R13, R60). -/
def State.emit (s : State) (e : Event) : State :=
  { s with pins := s.pins.apply e, trace := s.trace ++ [e] }

/-- Emit events in order (R60). -/
def State.emitAll (s : State) (es : List Event) : State := es.foldl State.emit s

/-- `PinMode(p, m)` (R13). -/
def State.pinMode (s : State) (p : Line) (m : PinMode) : State := s.emit (.pinMode p m)

/-- `PinSet(p, l)` (R13). -/
def State.pinSet (s : State) (p : Line) (l : Bit) : State := s.emit (.pinSet p l)

/-- `Hold(k)` (R13). -/
def State.hold (s : State) (k : HoldKind) : State := s.emit (.hold k)

/-- The target's next answer: the first one settled, else a free draw (R34, U4; log entry 2). -/
def Target.next (t : Target) : Bit × Target :=
  match t.answers with
  | b :: rest => (b, { t with answers := rest })
  | [] => (Config.ddiAnswer t.draws, { t with draws := t.draws + 1 })

/-- `b <- PinSample(DD_I)` (R13, R30): the oracle's answer; no engine field and no pin changes. -/
def State.pinSample (s : State) : Bit × State :=
  ((s.target.next).1, { s with target := (s.target.next).2 }.emit (.pinSample .ddi (s.target.next).1))

/-- `Pulse()` (R100). -/
def State.pulse (s : State) : State :=
  (((s.pinSet .dc true).hold .tick).pinSet .dc false).hold .tick

/-- `repeat n: Pulse()`. -/
def State.pulses : Nat → State → State
  | 0, s => s
  | n + 1, s => State.pulses n s.pulse

/-! ### What the fixtures settle -/

/-- Before the samples of `awaitReadable`: every fixture answers 0, ready at once (R213, D19); a target at the pins answers as it
will. -/
def Target.cuePoll (t : Target) : Target :=
  match t.fixture with
  | .pins => t
  | _ => { t with answers := [false] }

/-- The answers of a byte, or none settled. -/
def Target.settle (t : Target) : Option U8 → Target
  | some v => { t with answers := wireBits v }
  | none => { t with answers := [] }

/-- Before the 8 samples of an accepted `readByte`: the adapter answers the next byte of its script (R213), the round-trip
fixture the last byte written and the config fixture the last configuration operand (D27); past these the answers are free
(U18; log entry 14). -/
def Target.cueRead (written : List U8) (t : Target) : Target :=
  match t.fixture with
  | .pins => t
  | .adapter [] => t.settle none
  | .adapter (v :: script) => { t with fixture := .adapter script }.settle (some v)
  | .roundTrip => t.settle written.getLast?
  | .configEcho => t.settle (configEchoByte Config.massEraseFrame.bytes written)

/-! ### The Bit-Transfer bodies, after their checks -/

/-- The body of `setDirection(d)` (R101): nothing when `d` is the direction already. -/
def State.switchDirection (s : State) (d : Direction) : State :=
  if d = s.direction then s
  else
    match d with
    | .drive => ((({ s with direction := .drive }.pinMode .ddi .input).pinMode .ddo .output).pinSet .ddo false)
    | .sample => { s with direction := .sample }.pinMode .ddo .input

/-- The write bit cells of bits `n-1` down to 0 (R71, R102). -/
def State.shiftOut (v : U8) : Nat → State → State
  | 0, s => s
  | n + 1, s => State.shiftOut v n (s.pinSet .ddo (v.getLsbD n)).pulse

/-- The body of `writeByte(v)` (R102); the byte joins the record of written bytes (R213). -/
def State.writeBits (s : State) (v : U8) : State :=
  let driven := s.switchDirection .drive
  State.shiftOut v 8 { driven with written := driven.written ++ [v] }

/-- `n` read bit cells, each bit shifted into `r` (R71, R103). -/
def State.shiftIn : Nat → U8 → State → U8 × State
  | 0, r, s => (r, s)
  | n + 1, r, s =>
    match ((s.pinSet .dc true).hold .tick).pinSample with
    | (b, s) => State.shiftIn n (shiftInBit r b) ((s.pinSet .dc false).hold .tick)

/-- The body of `readByte()` (R103). -/
def State.readBits (s : State) : U8 × State :=
  let released := s.switchDirection .sample
  State.shiftIn 8 0 { released with target := released.target.cueRead released.written }

/-- `writeByte` for each byte of a frame, in order (R160). -/
def State.writeFrame : List U8 → State → State
  | [], s => s
  | b :: frame, s => State.writeFrame frame (s.writeBits b)

/-- `n` bytes read back to back (R160, D13). -/
def State.readResult : Nat → State → List U8 × State
  | 0, s => ([], s)
  | n + 1, s =>
    match s.readBits with
    | (b, s) => ((b :: (State.readResult n s).1), (State.readResult n s).2)

/-! ### The end of an operation -/

/-- `return v` (R13): the operation ends with its result. -/
def State.done (s : State) (r : Result) : State := { s with inFlight := none, result := r }

/-- The end of a transaction whose bytes are read (R133, R160 to R171). -/
def State.conclude (s : State) (r : List U8) : Finish → State
  | .lastByte => s.done (.byte (lastByteRead r))
  | .word16 => s.done (.word (wordRead r))
  | .leaveSession => { s with inSession := false }.done (.byte 0)

/-- What follows the loop of `awaitReadable`: nothing for a direct call, the reads and the switch back to drive for a
transaction (R160). -/
def State.afterReady (s : State) : InFlight → State
  | .handshake => s.done .nothing
  | .transaction n fin => ((State.readResult n s).2.switchDirection .drive).conclude (State.readResult n s).1 fin

/-- At most `n` turns of the loop of `awaitReadable` (R104): a sample 1 is followed by a burst of 8 pulses, a sample 0 by the last
settle hold and the end of the operation. After `n` busy turns the operation is still in flight (log entry 1). -/
def State.poll (k : InFlight) : Nat → State → State
  | 0, s => { s with inFlight := some k }
  | n + 1, s =>
    match s.pinSample with
    | (true, s) => State.poll k n (State.pulses 8 s)
    | (false, s) => (s.hold .settle).afterReady k

/-- The body of `awaitReadable()` (R104) and what follows it: as many turns of its loop as there are settled answers. -/
def State.await (s : State) (k : InFlight) : State :=
  let settled := (s.switchDirection .sample).hold .settle
  let cued := { settled with target := settled.target.cuePoll }
  State.poll k cued.target.answers.length cued

/-- One more turn of the loop for the operation in flight (R104, R206). -/
def State.resume (s : State) (k : InFlight) : State :=
  State.poll k 1 { s with target := s.target.cuePoll }

/-! ### Calls -/

/-- `fail(code)` (R13, R201): the code goes to the flag and the rejection result is returned; no event, no other change (R204). -/
def State.reject (s : State) (code : U8) (r : Result) : State := { s with errorFlag := code }.done r

/-- The `Refused` outcome (R10, R31, R209): the mark is set and nothing else changes. -/
def State.refuse (s : State) : State := { s with refused := true }

/-- A host call: refused while another call is in flight (R209, R214). -/
def hostCall (body : State → State) (s : State) : Host.Outcome State Fault Refusal :=
  match s.inFlight with
  | some _ => .next s.refuse
  | none => .next (body s)

/-- A direct call of a primitive without a session check (R101, R103, R104). -/
def primitiveCall (clears : Bool) (rejected : Result) (body : State → State) (s : State) : State :=
  match activeCheck s with
  | some code => s.reject code rejected
  | none => body (clearErrorIf clears s)

/-- A direct call of a primitive with a session check (R102). -/
def sessionPrimitiveCall (clears : Bool) (rejected : Result) (body : State → State) (s : State) : State :=
  match sessionCheck s with
  | some code => s.reject code rejected
  | none => body (clearErrorIf clears s)

/-- `Transact(frame, n)` (R160), with its rejection result (R201) and its end. -/
def transact (frame : List U8) (n : Nat) (fin : Finish) (rejected : Result) (s : State) : State :=
  match sessionCheck s with
  | some code => s.reject code rejected
  | none => (State.writeFrame frame (clearError s)).await (.transaction n fin)

/-- The host's next call, taken from its script (R79, D26). -/
def State.takeCall (s : State) : Option (Instr × State) :=
  match s.calls with
  | [] => none
  | i :: rest => some (i, { s with calls := rest })

/-- Put a call at the head of the host's script, with no operation in flight, so that the next step runs it (log entry 5). -/
def State.withCall (s : State) (i : Instr) : State := { s with inFlight := none, calls := i :: s.calls }

end Sys2Proof.Machine
end

