-- ==== Sys2Proof/Machine/BitTransfer.lean ====
section
/-! DEFINITION. The four operations of the Bit-Transfer Layer (40_bit_transfer.md). -/

namespace Sys2Proof.Machine

/-- `setDirection(d)` under a value of `PRIM_CLEARS_ERROR` (R101). -/
def setDirectionCall (clears : Bool) (d : Direction) : State → State :=
  primitiveCall clears .nothing fun s => (s.switchDirection d).done .nothing

/-- `writeByte(v)` under a value of `PRIM_CLEARS_ERROR` (R102). -/
def writeByteCall (clears : Bool) (v : U8) : State → State :=
  sessionPrimitiveCall clears .nothing fun s => (s.writeBits v).done .nothing

/-- `readByte()` under a value of `PRIM_CLEARS_ERROR` (R103). -/
def readByteCall (clears : Bool) : State → State :=
  primitiveCall clears (.byte 0) fun s => s.readBits.2.done (.byte s.readBits.1)

/-- `awaitReadable()` under a value of `PRIM_CLEARS_ERROR` (R104). -/
def awaitReadableCall (clears : Bool) : State → State :=
  primitiveCall clears .nothing fun s => s.await .handshake

/-- `setDirection(d)`, R101. -/
def execSetDirection (d : Direction) (s : State) : Host.Outcome State Fault Refusal :=
  hostCall (setDirectionCall Config.primClearsError d) s

/-- `writeByte(v)`, R102. -/
def execWriteByte (v : U8) (s : State) : Host.Outcome State Fault Refusal :=
  hostCall (writeByteCall Config.primClearsError v) s

/-- `readByte()`, R103. -/
def execReadByte (s : State) : Host.Outcome State Fault Refusal :=
  hostCall (readByteCall Config.primClearsError) s

/-- `awaitReadable()`, R104. -/
def execAwaitReadable (s : State) : Host.Outcome State Fault Refusal :=
  hostCall (awaitReadableCall Config.primClearsError) s

end Sys2Proof.Machine
end

