-- ==== Sys2Proof/Machine/Instruction.lean ====
section
/-! DEFINITION. The operations of the Instruction Layer (42_instruction.md): each is one transaction (R160). -/

namespace Sys2Proof.Machine

/-- `readConfig()`, R161. -/
def execReadConfig (s : State) : Host.Outcome State Fault Refusal :=
  hostCall (transact [0x20#8] 1 .lastByte (.byte 0)) s

/-- `writeConfig(c)`, R162. -/
def execWriteConfig (c : U8) (s : State) : Host.Outcome State Fault Refusal :=
  hostCall (transact [0x18#8, c] 1 .lastByte (.byte 0)) s

/-- `exec1(oc0)`, R163. -/
def execExec1 (oc0 : U8) (s : State) : Host.Outcome State Fault Refusal :=
  hostCall (transact [0x51#8, oc0] 1 .lastByte (.byte 0)) s

/-- `exec2(oc0, oc1)`, R164. -/
def execExec2 (oc0 oc1 : U8) (s : State) : Host.Outcome State Fault Refusal :=
  hostCall (transact [0x52#8, oc0, oc1] 1 .lastByte (.byte 0)) s

/-- `exec3(oc0, oc1, oc2)`, R165. -/
def execExec3 (oc0 oc1 oc2 : U8) (s : State) : Host.Outcome State Fault Refusal :=
  hostCall (transact [0x53#8, oc0, oc1, oc2] 1 .lastByte (.byte 0)) s

/-- `execImm16(oc0, c0)`, R166. -/
def execExecImm16 (oc0 : U8) (c0 : U16) (s : State) : Host.Outcome State Fault Refusal :=
  hostCall (transact [0x53#8, oc0, hiByte c0, loByte c0] 1 .lastByte (.byte 0)) s

/-- `getChipId()`, R167. -/
def execGetChipId (s : State) : Host.Outcome State Fault Refusal :=
  hostCall (transact [0x68#8] 2 .word16 (.word 0)) s

/-- `getPC()`, R168. -/
def execGetPC (s : State) : Host.Outcome State Fault Refusal :=
  hostCall (transact [0x28#8] 2 .word16 (.word 0)) s

/-- `getStatus()`, R169. -/
def execGetStatus (s : State) : Host.Outcome State Fault Refusal :=
  hostCall (transact [0x30#8] 1 .lastByte (.byte 0)) s

/-- `step()`, R170. -/
def execStep (s : State) : Host.Outcome State Fault Refusal :=
  hostCall (transact [0x58#8] 1 .lastByte (.byte 0)) s

/-- `massErase()` under values of `MASS_ERASE_FRAME` and `MASS_ERASE_READS` (R171). -/
def massEraseCall (frame : NonemptyBytes) (reads : ℕ+) : State → State :=
  transact frame.bytes reads .lastByte (.byte 0)

/-- `massErase()`, R171. -/
def execMassErase (s : State) : Host.Outcome State Fault Refusal :=
  hostCall (massEraseCall Config.massEraseFrame Config.massEraseReads) s

/-- `exec(ocs)` (R172): by length `exec1`, `exec2` or `exec3`; any other length is refused before any check. -/
def execCall (ocs : List U8) (s : State) : State :=
  match execFrame ocs with
  | some frame => transact frame 1 .lastByte (.byte 0) s
  | none => s.refuse

/-- `exec(ocs)`, R172. -/
def execExec (ocs : List U8) (s : State) : Host.Outcome State Fault Refusal := hostCall (execCall ocs) s

end Sys2Proof.Machine
end

