-- ==== Sys2Proof/Machine/Session.lean ====
section
/-! DEFINITION. The operations of the Protocol-Session Layer (41_session.md). -/

namespace Sys2Proof.Machine

/-- The `on` branch of R131, in its canonical order (log entry 8). -/
def State.driveLines (s : State) : State :=
  (((((({ s with active := true, inSession := false, direction := .drive }.pinMode .rst .output).pinSet .rst false).pinMode
    .dc .output).pinSet .dc false).pinMode .ddo .output).pinSet .ddo false).pinMode .ddi .input

/-- The other branch of R131: all four lines passive, the session abandoned (R244). -/
def State.releaseLines (s : State) : State :=
  ((({ s with active := false, inSession := false, direction := .sample }.pinMode .rst .input).pinMode .dc .input).pinMode
    .ddo .input).pinMode .ddi .input

/-- `activate(on)` (R131): never rejected; it clears the flag on every call. -/
def activateCall (on : Bool) (s : State) : State :=
  if on = s.active then (clearError s).done .nothing
  else if on then (clearError s).driveLines.done .nothing
  else (clearError s).releaseLines.done .nothing

/-- The debug-entry sequence (R132): a double clock pulse framed by reset. -/
def State.entrySequence (s : State) : State :=
  ((State.pulses 2 ((s.pinSet .rst false).hold .entry)).hold .entry).pinSet .rst true

/-- `enter()` (R132): error 1 when inactive, refused in session. -/
def enterCall (s : State) : State :=
  match activeCheck s with
  | some code => s.reject code (.byte 0)
  | none =>
    if s.inSession then s.refuse
    else { (clearError s).entrySequence with inSession := true }.done (.byte 0)

/-- `exit()` (R133): the resume transaction, whose status byte is dropped. -/
def exitCall : State → State := transact [0x48#8] 1 .leaveSession (.byte 0)

/-- `getError()` (R134): the flag, with no effect. -/
def getErrorCall (s : State) : State := s.done (.byte s.errorFlag)

/-- `activate(on)`, R131. -/
def execActivate (on : Bool) (s : State) : Host.Outcome State Fault Refusal := hostCall (activateCall on) s

/-- `enter()`, R132. -/
def execEnter (s : State) : Host.Outcome State Fault Refusal := hostCall enterCall s

/-- `exit()`, R133. -/
def execExit (s : State) : Host.Outcome State Fault Refusal := hostCall exitCall s

/-- `getError()`, R134. -/
def execGetError (s : State) : Host.Outcome State Fault Refusal := hostCall getErrorCall s

end Sys2Proof.Machine
end

