-- ==== Sys2Proof/Machine/Dispatch.lean ====
section
/-! DEFINITION. One arm per host operation, in the order of spec/opcode_table.json. -/

namespace Sys2Proof.Machine

def exec (i : Instr) (s : State) : Host.Outcome State Fault Refusal :=
  match i with
  | .setDirection d => Sys2Proof.Machine.execSetDirection d s
  | .writeByte v => Sys2Proof.Machine.execWriteByte v s
  | .readByte => Sys2Proof.Machine.execReadByte s
  | .awaitReadable => Sys2Proof.Machine.execAwaitReadable s
  | .activate on => Sys2Proof.Machine.execActivate on s
  | .enter => Sys2Proof.Machine.execEnter s
  | .exit => Sys2Proof.Machine.execExit s
  | .getError => Sys2Proof.Machine.execGetError s
  | .readConfig => Sys2Proof.Machine.execReadConfig s
  | .writeConfig c => Sys2Proof.Machine.execWriteConfig c s
  | .exec1 oc0 => Sys2Proof.Machine.execExec1 oc0 s
  | .exec2 oc0 oc1 => Sys2Proof.Machine.execExec2 oc0 oc1 s
  | .exec3 oc0 oc1 oc2 => Sys2Proof.Machine.execExec3 oc0 oc1 oc2 s
  | .execImm16 oc0 c0 => Sys2Proof.Machine.execExecImm16 oc0 c0 s
  | .getChipId => Sys2Proof.Machine.execGetChipId s
  | .getPC => Sys2Proof.Machine.execGetPC s
  | .getStatus => Sys2Proof.Machine.execGetStatus s
  | .step => Sys2Proof.Machine.execStep s
  | .massErase => Sys2Proof.Machine.execMassErase s
  | .exec ocs => Sys2Proof.Machine.execExec ocs s

end Sys2Proof.Machine
end

