-- ==== Sys2Proof/Machine/Step.lean ====
section
/-! DEFINITION. One step of the engine (00_scope.md rule R8): the operation in flight goes on; else the host's next call runs;
else the engine waits for a call. -/

namespace Sys2Proof.Machine

/-- One step. The engine is the only agent that steps, and one operation runs at a time (R8, R57). -/
def step (s : State) : Host.Outcome State Fault Refusal :=
  match s.inFlight with
  | some k => .next (s.resume k)
  | none =>
    match s.takeCall with
    | none => .next s
    | some (i, s') => exec i s'

/-- The state with the operation of a table word as the host's next call (log entry 5); unchanged where no frame begins. -/
def State.withFetchWord (s : State) (nbits w : Nat) : State :=
  match decodeTableWord nbits w with
  | some i => s.withCall i
  | none => s

end Sys2Proof.Machine
end

