-- ==== Sys2Proof/Safety.lean ====
section
/-! DEFINITION. The terms claims are stated in: the trace notation of 00_scope.md rule R14 written out event by event, the session
mode (10_state.md rule R25), the invariant of the state between steps (rules R24 to R30), the discipline of the pin events (rules
R26, R30, R106, R240, R245), what a target answers, and the time a trace's holds take (70_reset_and_hazards.md rule R246). -/

namespace Sys2Proof.Trace

open Sys2Proof.Machine

/-- `P`, one clock pulse (R14, R100). -/
def P : List Event := [.pinSet .dc true, .hold .tick, .pinSet .dc false, .hold .tick]

/-- `8P`, one busy burst (R14, R104). -/
def P8 : List Event := P ++ P ++ P ++ P ++ P ++ P ++ P ++ P

/-- `W(b)`, one written bit (R14, R71). -/
def W (b : Bit) : List Event := [.pinSet .ddo b, .pinSet .dc true, .hold .tick, .pinSet .dc false, .hold .tick]

/-- `Rd(b)`, one read bit (R14, R71). -/
def Rd (b : Bit) : List Event := [.pinSet .dc true, .hold .tick, .pinSample .ddi b, .pinSet .dc false, .hold .tick]

/-- `WB(v)`, one written byte, bit 7 first (R14, R52). -/
def WB (v : U8) : List Event :=
  W (v.getLsbD 7) ++ W (v.getLsbD 6) ++ W (v.getLsbD 5) ++ W (v.getLsbD 4) ++ W (v.getLsbD 3) ++ W (v.getLsbD 2) ++
    W (v.getLsbD 1) ++ W (v.getLsbD 0)

/-- `RB(v)`, one read byte whose samples spell `v`, bit 7 first (R14, R52). -/
def RB (v : U8) : List Event :=
  Rd (v.getLsbD 7) ++ Rd (v.getLsbD 6) ++ Rd (v.getLsbD 5) ++ Rd (v.getLsbD 4) ++ Rd (v.getLsbD 3) ++ Rd (v.getLsbD 2) ++
    Rd (v.getLsbD 1) ++ Rd (v.getLsbD 0)

/-- `DRV`, a switch to drive (R14, R101). -/
def DRV : List Event := [.pinMode .ddi .input, .pinMode .ddo .output, .pinSet .ddo false]

/-- `SMP`, a switch to sample (R14, R101). -/
def SMP : List Event := [.pinMode .ddo .input]

/-- The switch to a direction from the current one: no event when they are equal (R101, R105). -/
def switch (current d : Direction) : List Event :=
  match current, d with
  | .sample, .drive => DRV
  | .drive, .sample => SMP
  | _, _ => []

/-- `(R(DD_I)=1 8P)^k` (R160). -/
def busy : Nat → List Event
  | 0 => []
  | k + 1 => .pinSample .ddi true :: (P8 ++ busy k)

/-- The handshake after its direction switch, with `k` busy samples (R104, R160). -/
def handshake (k : Nat) : List Event :=
  .hold .settle :: (busy k ++ [.pinSample .ddi false, .hold .settle])

/-- The trace of an accepted transaction (R160). -/
def transaction (current : Direction) (frame : List U8) (k : Nat) (bytes : List U8) : List Event :=
  switch current .drive ++ frame.flatMap WB ++ SMP ++ handshake k ++ bytes.flatMap RB ++ DRV

/-- The seven events of a change to active (R131, R231). -/
def driveLines : List Event :=
  [.pinMode .rst .output, .pinSet .rst false, .pinMode .dc .output, .pinSet .dc false, .pinMode .ddo .output, .pinSet .ddo false,
    .pinMode .ddi .input]

/-- The four events of a change to inactive (R131). -/
def releaseLines : List Event := [.pinMode .rst .input, .pinMode .dc .input, .pinMode .ddo .input, .pinMode .ddi .input]

/-- The entry sequence (R132, R241). -/
def entry : List Event :=
  [.pinSet .rst false, .hold .entry] ++ P ++ P ++ [.hold .entry, .pinSet .rst true]

/-- The pins after a trace, from the pins before it (R26, R60). -/
def pinsAfter (ps : Pins) (es : List Event) : Pins := es.foldl Pins.apply ps

/-- What each event may find on the pins: only DD_I is sampled, as an input while DD_O is an input too (R30, R106); DD_I is never
an output and its level is never set (R30); DD_O's level is set only as an output with the clock low (R240); RST rises only with the
clock low (R241); the clock rises only as an output. -/
def eventAllowed (ps : Pins) : Event → Bool
  | .pinSample p _ => p == .ddi && ps.ddi.mode == .input && ps.ddo.mode == .input
  | .pinMode .ddi m => m == .input
  | .pinMode _ _ => true
  | .pinSet .ddi _ => false
  | .pinSet .ddo _ => ps.ddo.mode == .output && ps.dc.level == false
  | .pinSet .rst true => ps.rst.mode == .output && ps.dc.level == false
  | .pinSet .rst false => ps.rst.mode == .output
  | .pinSet .dc _ => ps.dc.mode == .output
  | .hold _ => true

/-- Every event of a trace is allowed where it stands. -/
def disciplined (ps : Pins) : List Event → Bool
  | [] => true
  | e :: es => eventAllowed ps e && disciplined (ps.apply e) es

/-- Whether an event sets the level of a line. -/
def setsLevel (p : Line) : Event → Bool
  | .pinSet q _ => p == q
  | _ => false

/-- `PinMode(p, OUT)` is always followed at once by a `PinSet` of the same line, so no clock edge finds a latched level (R26, R245). -/
def outputsSet : List Event → Bool
  | [] => true
  | .pinMode p .output :: es => (match es with | e :: _ => setsLevel p e | [] => false) && outputsSet es
  | _ :: es => outputsSet es

/-- The time the holds of a trace take, under the durations of R7. -/
def holdTime : List Event → Nat
  | [] => 0
  | .hold k :: es => (Config.duration k : Nat) + holdTime es
  | _ :: es => holdTime es

end Sys2Proof.Trace

namespace Sys2Proof.Machine

/-- The three modes (R25, R210). -/
inductive Mode where
  | inactive
  | outOfSession
  | inSession
deriving DecidableEq, Repr

/-- The mode (R25); the fourth combination of the two flags is none. -/
def State.mode (s : State) : Option Mode :=
  match s.active, s.inSession with
  | false, false => some .inactive
  | true, false => some .outOfSession
  | true, true => some .inSession
  | false, true => none

/-- No operation in flight: the state the host meets between its calls (R57). -/
def State.Idle (s : State) : Prop := s.inFlight = none

/-- The invariant of the engine's state. -/
structure State.Legal (s : State) : Prop where
  /-- R24: the flag holds only 0, 1 or 2. -/
  flag : s.errorFlag = 0#8 ∨ s.errorFlag = 1#8 ∨ s.errorFlag = 2#8
  /-- R25: inactive implies not in session. -/
  session : s.inSession = true → s.active = true
  /-- R27, R30: DD_I is always an input. -/
  ddiInput : s.pins.ddi.mode = .input
  /-- R28: RST is 1 after `enter`. -/
  rstHigh : s.inSession = true → s.pins.rst.level = true
  /-- R28: the lines of an active engine. -/
  driven : s.active = true →
    s.pins.rst.mode = .output ∧ s.pins.dc.mode = .output ∧ s.pins.dc.level = false ∧
      (s.pins.ddo.mode = .output ↔ s.direction = .drive)
  /-- R28: the lines of an inactive engine. -/
  passive : s.active = false →
    s.pins.rst.mode = .input ∧ s.pins.dc.mode = .input ∧ s.pins.ddo.mode = .input ∧ s.direction = .sample
  /-- R104, R206: an operation waits only in an active engine that samples. -/
  waiting : s.inFlight ≠ none → s.active = true ∧ s.direction = .sample
  /-- R160, R206: a transaction waits in session with a clear flag and reads at least one byte. -/
  transacting : ∀ n fin, s.inFlight = some (.transaction n fin) → s.inSession = true ∧ s.errorFlag = 0#8 ∧ 1 ≤ n

/-- The state after events: they stand at the end of the trace and have taken effect on the pins (R13, R60). -/
def State.after (s : State) (es : List Event) : State :=
  { s with pins := Trace.pinsAfter s.pins es, trace := s.trace ++ es }

/-- The bits of a byte, bit 7 first (R52). -/
def msbFirst (v : U8) : List Bit :=
  [v.getLsbD 7, v.getLsbD 6, v.getLsbD 5, v.getLsbD 4, v.getLsbD 3, v.getLsbD 2, v.getLsbD 1, v.getLsbD 0]

/-- A target at the pins whose next answers are `bits`, and the target after them (R34). -/
def Target.Gives (t : Target) (bits : List Bit) (t' : Target) : Prop :=
  t.fixture = .pins ∧ t.answers = bits ++ t'.answers ∧ t' = { t with answers := t'.answers }

/-- A target that answers one handshake with `k` busy samples and then the bytes `bytes`, and the target after them: a target at the
pins (R34, R104) or the byte-stream adapter, ready at once, whose script begins with them (R213). -/
def Target.Serves (t : Target) (k : Nat) (bytes : List U8) (t' : Target) : Prop :=
  t.Gives (List.replicate k true ++ false :: bytes.flatMap msbFirst) t' ∨
    k = 0 ∧ ∃ script, t.fixture = .adapter (bytes ++ script) ∧ t' = { t with fixture := .adapter script, answers := [] }

end Sys2Proof.Machine
end

