-- ==== Sys2Proof/Certificates/Slice0/Obligations.lean ====
section
/-! DEFINITION. The statements for the provers. Each says what the spec's rule says, over every state that meets its hypotheses; no
statement rests on a value of a parameter (log entry 7) or on a reset value of the environment's fields (log entry 2). -/

namespace Sys2Proof.Claims

open Sys2Proof.Machine Sys2Proof.Trace

/-- The ten framing bytes of R72 and R76. -/
def framingBytes : List U8 := [0x48#8, 0x20#8, 0x18#8, 0x51#8, 0x52#8, 0x53#8, 0x68#8, 0x28#8, 0x30#8, 0x58#8]

/-- `errorFlag` after an accepted direct call of a primitive (R135). -/
def primitiveFlag (s : State) : U8 := if Config.primClearsError then 0#8 else s.errorFlag

/-- The operations of the Instruction Layer and `exit`: every row of the table of R72, and `exec` of 1 to 3 bytes (R80). -/
def isTransaction : Instr → Bool
  | .exit | .readConfig | .writeConfig _ | .exec1 _ | .exec2 _ _ | .exec3 _ _ _ | .execImm16 _ _ | .getChipId | .getPC
  | .getStatus | .step | .massErase => true
  | .exec ocs => decide (1 ≤ ocs.length ∧ ocs.length ≤ 3)
  | .setDirection _ | .writeByte _ | .readByte | .awaitReadable | .activate _ | .enter | .getError => false

/-- The operations that check `inSession` (R202). -/
def needsSession (i : Instr) : Bool :=
  match i with
  | .writeByte _ => true
  | i => isTransaction i

/-- The operations that check `active` (R202). -/
def needsActive (i : Instr) : Bool :=
  match i with
  | .setDirection _ | .readByte | .awaitReadable | .enter => true
  | i => needsSession i

/-- The rejection results of R201. -/
def rejectionResult : Instr → Result
  | .setDirection _ | .writeByte _ | .awaitReadable => .nothing
  | .getChipId | .getPC => .word 0#16
  | _ => .byte 0#8

/-- "bytes read" of the table of R72. -/
def bytesRead : Instr → Nat
  | .getChipId | .getPC => 2
  | .massErase => Config.massEraseReads
  | _ => 1

/-- The state after an accepted transaction from `s` with `k` busy samples (R160): it wrote `frame` and read `bytes`. -/
def transacted (s : State) (frame : List U8) (k : Nat) (bytes : List U8) (t : Target) (r : Result) : State :=
  { s.after (transaction s.direction frame k bytes) with
    errorFlag := 0#8, direction := .drive, result := r, written := s.written ++ frame, target := t }

/-- An operation of the Instruction Layer is the transaction of `frame`, reads `n` bytes `r` and returns `value r`; rejected, it
returns `zero` and changes nothing but the flag (R160, R201, R203, R204). -/
def IsTransaction (i : Instr) (frame : List U8) (n : Nat) (value : List U8 → Result) (zero : Result) : Prop :=
  ∀ s : State, s.Idle →
    (s.active = false → exec i s = .next { s with errorFlag := 1#8, result := zero }) ∧
      (s.active = true → s.inSession = false → exec i s = .next { s with errorFlag := 2#8, result := zero }) ∧
        (s.active = true → s.inSession = true → ∀ (k : Nat) (r : List U8) (t : Target), r.length = n → s.target.Serves k r t →
          exec i s = .next (transacted s frame k r t (value r)))

/-- The calls of `R130`'s table: the mode after a call that returned. -/
def modeAfter (m : Mode) : Instr → Mode
  | .activate true => if m = .inactive then .outOfSession else m
  | .activate false => .inactive
  | .enter => if m = .outOfSession then .inSession else m
  | .exit => if m = .inSession then .outOfSession else m
  | _ => m

/-- Host calls one after the other, each on the state the one before left. -/
def runCalls : List Instr → State → Option State
  | [], s => some s
  | i :: is, s =>
    match exec i s with
    | .next t => runCalls is t
    | _ => none

end Sys2Proof.Claims

open Sys2Proof Sys2Proof.Machine Sys2Proof.Trace Sys2Proof.Claims

/-! ### Reset and the step -/

/-- R36: the reset values the spec's table gives; DD_I's level has none there. -/
def Obligations.ResetLeavesTheTableOfValues : Prop :=
  State.reset.active = true ∧ State.reset.inSession = false ∧ State.reset.direction = .drive ∧ State.reset.errorFlag = 0#8 ∧
    State.reset.pins.rst = { mode := .output, level := false } ∧ State.reset.pins.dc = { mode := .output, level := false } ∧
    State.reset.pins.ddo = { mode := .output, level := false } ∧ State.reset.pins.ddi.mode = .input ∧
    State.reset.refused = false

/-- R231: construction emits the seven events of the `on` branch of R131. -/
def Obligations.ConstructionEmitsSevenEvents : Prop :=
  State.reset.trace =
    [.pinMode .rst .output, .pinSet .rst false, .pinMode .dc .output, .pinSet .dc false, .pinMode .ddo .output,
      .pinSet .ddo false, .pinMode .ddi .input]

/-- R24, R25, R28, R30: the state after construction meets the invariant. -/
def Obligations.ResetMeetsTheInvariant : Prop := State.reset.Legal

/-- R24, R25, R28, R30: every step keeps the invariant; its clauses about what is in flight are the model's (log entry 1). -/
def Obligations.StepKeepsTheInvariant : Prop :=
  ∀ s t : State, s.Legal → step s = .next t → t.Legal

/-- R24, R25, R28, R30: every host call keeps the invariant, also one refused because another is in flight. -/
def Obligations.HostCallKeepsTheInvariant : Prop :=
  ∀ (i : Instr) (s t : State), s.Legal → exec i s = .next t → t.Legal

/-- R26, R30, R106, R240, R241, R245: what a step adds to the trace has taken effect on the pins, every event is allowed where it
stands, and no output keeps a latched level. For `activate(true)` the clauses that a `PinSet` follows each `PinMode(p, OUT)` at once and
that DD_O is set only with the clock low hold by the canonical order of its events, which is the model's choice (log entry 8: U2 admits
other orders, and R26 asks only for a `PinSet` before any `Pulse`). -/
def Obligations.StepEmitsDisciplinedEvents : Prop :=
  ∀ s t : State, s.Legal → step s = .next t →
    ∃ es, t.trace = s.trace ++ es ∧ t.pins = pinsAfter s.pins es ∧ disciplined s.pins es = true ∧ outputsSet es = true

/-- R26: the events that configure a line, and those that do not. -/
def Obligations.PinEventsConfigureTheirLine : Prop :=
  ∀ (ps : Pins) (m : PinMode) (l b : Bit) (p : Line) (k : HoldKind),
    ps.apply (.pinMode .rst m) = { ps with rst := { mode := m, level := ps.rst.level } } ∧
    ps.apply (.pinMode .dc m) = { ps with dc := { mode := m, level := ps.dc.level } } ∧
    ps.apply (.pinMode .ddo m) = { ps with ddo := { mode := m, level := ps.ddo.level } } ∧
    ps.apply (.pinMode .ddi m) = { ps with ddi := { mode := m, level := ps.ddi.level } } ∧
    ps.apply (.pinSet .rst l) = { ps with rst := { mode := ps.rst.mode, level := l } } ∧
    ps.apply (.pinSet .dc l) = { ps with dc := { mode := ps.dc.mode, level := l } } ∧
    ps.apply (.pinSet .ddo l) = { ps with ddo := { mode := ps.ddo.mode, level := l } } ∧
    ps.apply (.pinSet .ddi l) = { ps with ddi := { mode := ps.ddi.mode, level := l } } ∧
    ps.apply (.pinSample p b) = ps ∧ ps.apply (.hold k) = ps

/-- R8, R57, R79: a step of an idle engine runs the host's next call and nothing when there is none; a word of the opcode table
placed as the next call is the one that runs (log entry 5). -/
def Obligations.StepRunsTheNextCall : Prop :=
  (∀ (s : State) (i : Instr) (rest : List Instr), s.Idle → s.calls = i :: rest → step s = exec i { s with calls := rest }) ∧
    (∀ s : State, s.Idle → s.calls = [] → step s = .next s) ∧
    ∀ (s : State) (nbits w : Nat) (i : Instr), decodeTableWord nbits w = some i →
      step (s.withFetchWord nbits w) = exec i { s with inFlight := none }

/-! ### Waiting for the target -/

/-- R104, R206: an operation in flight at the pins takes one more sample; a busy one is followed by a burst and the operation stays in
flight. The sample is the first settled answer, or else a free draw (log entry 2): then a handshake in flight goes on or returns by
the value drawn. -/
def Obligations.BusySampleKeepsTheOperationInFlight : Prop :=
  ∀ (s : State) (k : InFlight), s.inFlight = some k → s.target.fixture = .pins →
    (∀ rest, s.target.answers = true :: rest →
      step s = .next { s.after (.pinSample .ddi true :: P8) with target := { s.target with answers := rest } }) ∧
    (s.target.answers = [] → k = .handshake →
      step s = .next
        (if Config.ddiAnswer s.target.draws then
          { s.after (.pinSample .ddi true :: P8) with target := { s.target with draws := s.target.draws + 1 } }
        else
          { s.after [.pinSample .ddi false, .hold .settle] with
            inFlight := none, result := .nothing, target := { s.target with draws := s.target.draws + 1 } }))

/-- R206: while every sample reads 1 the operation does not return. In flight (log entry 1), `n` steps add `n` busy bursts to the
trace and change nothing else; and a direct `awaitReadable` that finds `n` busy answers and no other has emitted `n` bursts and is in
flight. There is no timeout: `n` is any number. -/
def Obligations.BusyTargetNeverLetsGo : Prop :=
  (∀ (n : Nat) (s : State) (k : InFlight) (rest : List Bit), s.inFlight = some k → s.target.fixture = .pins →
    s.target.answers = List.replicate n true ++ rest →
      Sys2Proof.core.run n s = .next { s.after (busy n) with target := { s.target with answers := rest } }) ∧
    ∀ (n : Nat) (s : State), s.Idle → s.active = true → s.target.fixture = .pins → s.target.answers = List.replicate n true →
      exec .awaitReadable s =
        .next
          { s.after (switch s.direction .sample ++ [.hold .settle] ++ busy n) with
            direction := .sample
            errorFlag := primitiveFlag s
            inFlight := some .handshake
            target := { s.target with answers := [] } }

/-- R104: a direct `awaitReadable` in flight (log entry 1) returns with the settle hold at the first sample 0, after `n` busy ones. -/
def Obligations.WaitingHandshakeReturns : Prop :=
  ∀ (n : Nat) (s : State) (t : Target), s.inFlight = some .handshake → s.target.Gives (List.replicate n true ++ [false]) t →
    Sys2Proof.core.run (n + 1) s =
      .next { s.after (busy n ++ [.pinSample .ddi false, .hold .settle]) with inFlight := none, result := .nothing, target := t }

/-- R133, R160: a transaction in flight (log entry 1) ends `n` busy samples later: the settle hold, the reads, the switch to drive and its
result; `exit` leaves the session. -/
def Obligations.WaitingTransactionReturns : Prop :=
  ∀ (n m : Nat) (s : State) (fin : Finish) (r : List U8) (t : Target),
    s.inFlight = some (.transaction m fin) → s.direction = .sample → 1 ≤ m → r.length = m →
    s.target.Gives (List.replicate n true ++ false :: r.flatMap msbFirst) t →
    Sys2Proof.core.run (n + 1) s =
      .next
        { s.after (busy n ++ [.pinSample .ddi false, .hold .settle] ++ r.flatMap RB ++ DRV) with
          direction := .drive
          inFlight := none
          target := t
          inSession := if fin = .leaveSession then false else s.inSession
          result :=
            match fin with
            | .lastByte => .byte (r.getD (m - 1) 0#8)
            | .word16 => .word (((r.getD 0 0#8).zeroExtend 16 <<< 8) ||| (r.getD 1 0#8).zeroExtend 16)
            | .leaveSession => .byte 0#8 }

/-- R160, R205, R206: whatever the target answers, an accepted transaction either returns, its trace showing the samples it took,
or is in flight (log entry 1) after its frame and `k` busy samples, still in session, sampling, with a clear flag. -/
def Obligations.AcceptedTransactionReturnsOrWaits : Prop :=
  ∀ (i : Instr) (s : State), isTransaction i = true → s.Idle → s.active = true → s.inSession = true →
    ∃ t k, exec i s = .next t ∧ t.written = s.written ++ encode i ∧ t.errorFlag = 0#8 ∧ t.active = true ∧
      ((∃ r, r.length = bytesRead i ∧ t.inFlight = none ∧ t.direction = .drive ∧
          t.trace = s.trace ++ transaction s.direction (encode i) k r) ∨
        (t.inFlight ≠ none ∧ t.direction = .sample ∧ t.inSession = true ∧ t.result = s.result ∧
          t.trace = s.trace ++ switch s.direction .drive ++ (encode i).flatMap WB ++ SMP ++ .hold .settle :: busy k))

/-! ### The wire -/

/-- R72, R73, R76, R77: reading the frame of an operation gives the operation back, with every operand at every value and whatever
follows it; `execImm16` and `exec` read as the `exec` operation whose frame they send. -/
def Obligations.ReadingAFrameGivesItsOperation : Prop :=
  ∀ (i j : Instr) (rest : List U8), i.onWire = some j → decode (encode i ++ rest) = .ok (j, rest)

/-- R72, R76: whatever the reader takes for a frame is the frame of the operation it gives, and nothing is dropped. -/
def Obligations.AReadFrameIsTheOperationsFrame : Prop :=
  ∀ (bytes rest : List U8) (i : Instr), decode bytes = .ok (i, rest) →
    bytes = encode i ++ rest ∧ i.wellFormed = true ∧ i.onWire = some i

/-- R76, R78, R81: a byte that is none of the ten framing bytes begins no frame, and a framing byte does not begin a frame only when
operand bytes are missing. -/
def Obligations.OnlyTheTenFramingBytesBeginAFrame : Prop :=
  ∀ (f : U8) (rest : List U8),
    (f ∉ framingBytes → decode (f :: rest) = .error (.notAFramingByte f)) ∧
      (f ∈ framingBytes → 3 ≤ rest.length → ∃ i r, decode (f :: rest) = .ok (i, r))

/-- R72: words of the table written out bit by bit decode to their operations. -/
def Obligations.FramesWrittenOutDecode : Prop :=
  decode [0b01001000#8] = .ok (.exit, []) ∧ decode [0b00011000#8, 0x3C#8] = .ok (.writeConfig 0x3C#8, []) ∧
    decode [0b01010011#8, 0x90#8, 0x12#8, 0x34#8] = .ok (.exec3 0x90#8 0x12#8 0x34#8, []) ∧
    decode [0b01101000#8] = .ok (.getChipId, []) ∧ decodeTableWord 8 0x58 = some .step

/-- R72, R171: the reader that knows `MASS_ERASE_FRAME` reads it back, whatever the frame, when its first byte is no framing byte of
the table (log entry 11). -/
def Obligations.MassEraseFrameReadsBack : Prop :=
  ∀ (frame : NonemptyBytes) (rest : List U8), frame.first ∉ framingBytes →
    decodeWire frame.bytes (encodeWith frame.bytes .massErase ++ rest) = .ok (.massErase, rest)

/-! ### The Bit-Transfer Layer -/

/-- R101. -/
def Obligations.SetDirectionSwitchesTheLine : Prop :=
  ∀ (d : Direction) (s : State), s.Idle →
    (s.active = false → exec (.setDirection d) s = .next { s with errorFlag := 1#8, result := .nothing }) ∧
      (s.active = true → s.direction = d →
        exec (.setDirection d) s = .next { s with errorFlag := primitiveFlag s, result := .nothing }) ∧
      (s.active = true → s.direction ≠ d →
        exec (.setDirection d) s =
          .next
            { s.after
                (match d with
                | .drive => [.pinMode .ddi .input, .pinMode .ddo .output, .pinSet .ddo false]
                | .sample => [.pinMode .ddo .input]) with
              direction := d, errorFlag := primitiveFlag s, result := .nothing })

/-- R102. -/
def Obligations.WriteByteShiftsAByteOut : Prop :=
  ∀ (v : U8) (s : State), s.Idle →
    (s.active = false → exec (.writeByte v) s = .next { s with errorFlag := 1#8, result := .nothing }) ∧
      (s.active = true → s.inSession = false →
        exec (.writeByte v) s = .next { s with errorFlag := 2#8, result := .nothing }) ∧
      (s.active = true → s.inSession = true →
        exec (.writeByte v) s =
          .next
            { s.after (switch s.direction .drive ++ WB v) with
              direction := .drive, errorFlag := primitiveFlag s, result := .nothing, written := s.written ++ [v] })

/-- R103: in every state in which it is not rejected, and whatever the target answers, `readByte` takes eight samples and returns the
byte they spell, most significant bit first; it needs no session. -/
def Obligations.ReadByteReturnsWhatTheSamplesSpell : Prop :=
  ∀ s : State, s.Idle →
    (s.active = false → exec .readByte s = .next { s with errorFlag := 1#8, result := .byte 0#8 }) ∧
      (s.active = true → ∃ v t,
        exec .readByte s =
          .next
            { s.after (switch s.direction .sample ++ RB v) with
              direction := .sample, errorFlag := primitiveFlag s, result := .byte v, target := t })

/-- R103, R213: the byte is the one a target at the pins answers with its next eight samples, or the adapter's next scripted byte. -/
def Obligations.ReadByteReturnsTheTargetsByte : Prop :=
  ∀ (s : State) (v : U8) (t : Target), s.Idle → s.active = true →
    (s.target.Gives (msbFirst v) t ∨
      ∃ script, s.target.fixture = .adapter (v :: script) ∧ t = { s.target with fixture := .adapter script, answers := [] }) →
    exec .readByte s =
      .next
        { s.after (switch s.direction .sample ++ RB v) with
          direction := .sample, errorFlag := primitiveFlag s, result := .byte v, target := t }

/-- R104, R213: with `k` busy samples and then a ready one `awaitReadable` emits `k` bursts of eight pulses between its settle
holds; it needs no session. -/
def Obligations.AwaitReadableClocksABusyTarget : Prop :=
  ∀ s : State, s.Idle →
    (s.active = false → exec .awaitReadable s = .next { s with errorFlag := 1#8, result := .nothing }) ∧
      (s.active = true → ∀ (k : Nat) (t : Target), s.target.Serves k [] t →
        exec .awaitReadable s =
          .next
            { s.after (switch s.direction .sample ++ [.hold .settle] ++ busy k ++ [.pinSample .ddi false, .hold .settle]) with
              direction := .sample, errorFlag := primitiveFlag s, result := .nothing, target := t })

/-- R105: a second `setDirection` with the same value, whatever the first did, and the direction switches inside a second
`writeByte` or a `readByte` after an `awaitReadable`, emit no event. -/
def Obligations.RepeatedDirectionsEmitNothing : Prop :=
  (∀ (d : Direction) (s t u : State), exec (.setDirection d) s = .next t → exec (.setDirection d) t = .next u →
      u.trace = t.trace ∧ u.pins = t.pins ∧ u.direction = t.direction) ∧
    (∀ (v w : U8) (s t u : State), s.Idle → s.active = true → s.inSession = true → exec (.writeByte v) s = .next t →
      exec (.writeByte w) t = .next u → u.trace = t.trace ++ WB w) ∧
    ∀ (s t u : State), s.Idle → s.active = true → exec .awaitReadable s = .next t → t.Idle → exec .readByte t = .next u →
      ∃ v, u.trace = t.trace ++ RB v ∧ u.result = .byte v

/-- R107: the event counts of the accepted primitives. -/
def Obligations.PrimitiveEventCounts : Prop :=
  ∀ (s t : State), s.Idle → s.active = true →
    (exec (.setDirection s.direction) s = .next t → t.trace.length = s.trace.length) ∧
    (s.direction = .sample → exec (.setDirection .drive) s = .next t → t.trace.length = s.trace.length + 3) ∧
    (s.direction = .drive → exec (.setDirection .sample) s = .next t → t.trace.length = s.trace.length + 1) ∧
    (∀ v, s.inSession = true → exec (.writeByte v) s = .next t →
      t.trace.length = s.trace.length + if s.direction = .drive then 40 else 43) ∧
    (exec .readByte s = .next t → t.trace.length = s.trace.length + if s.direction = .sample then 40 else 41) ∧
    (∀ k u, s.target.Serves k [] u → exec .awaitReadable s = .next t →
      t.trace.length = s.trace.length + (if s.direction = .sample then 3 else 4) + 33 * k)

/-! ### The Protocol-Session Layer -/

/-- R131; the events of each branch come in the spec's canonical order, where a model may admit any (log entry 8). -/
def Obligations.ActivateSwitchesTheLines : Prop :=
  ∀ s : State, s.Idle →
    (∀ on, on = s.active → exec (.activate on) s = .next { s with errorFlag := 0#8, result := .nothing }) ∧
      (s.active = false →
        exec (.activate true) s =
          .next
            { s.after
                [.pinMode .rst .output, .pinSet .rst false, .pinMode .dc .output, .pinSet .dc false, .pinMode .ddo .output,
                  .pinSet .ddo false, .pinMode .ddi .input] with
              active := true, inSession := false, direction := .drive, errorFlag := 0#8, result := .nothing }) ∧
      (s.active = true →
        exec (.activate false) s =
          .next
            { s.after [.pinMode .rst .input, .pinMode .dc .input, .pinMode .ddo .input, .pinMode .ddi .input] with
              active := false, inSession := false, direction := .sample, errorFlag := 0#8, result := .nothing })

/-- R132, R241: exactly two clock pulses while RST is low; refused in session. -/
def Obligations.EnterRunsTheEntrySequence : Prop :=
  ∀ s : State, s.Idle →
    (s.active = false → exec .enter s = .next { s with errorFlag := 1#8, result := .byte 0#8 }) ∧
      (s.active = true → s.inSession = true → exec .enter s = .next { s with refused := true }) ∧
      (s.active = true → s.inSession = false →
        exec .enter s =
          .next
            { s.after
                [.pinSet .rst false, .hold .entry, .pinSet .dc true, .hold .tick, .pinSet .dc false, .hold .tick,
                  .pinSet .dc true, .hold .tick, .pinSet .dc false, .hold .tick, .hold .entry, .pinSet .rst true] with
              inSession := true, errorFlag := 0#8, result := .byte 0#8 })

/-- R133: `exit` is the transaction of `0x48`; the status byte is dropped and the session is left. -/
def Obligations.ExitResumesAndLeaves : Prop :=
  ∀ s : State, s.Idle →
    (s.active = false → exec .exit s = .next { s with errorFlag := 1#8, result := .byte 0#8 }) ∧
      (s.active = true → s.inSession = false → exec .exit s = .next { s with errorFlag := 2#8, result := .byte 0#8 }) ∧
        (s.active = true → s.inSession = true → ∀ (k : Nat) (v : U8) (t : Target), s.target.Serves k [v] t →
          exec .exit s = .next { transacted s [0x48#8] k [v] t (.byte 0#8) with inSession := false })

/-- R134: the flag is returned and nothing else happens, in every mode. -/
def Obligations.GetErrorReadsTheFlag : Prop :=
  ∀ s : State, s.Idle → exec .getError s = .next { s with result := .byte s.errorFlag }

/-- R130: the mode after a call that returned. -/
def Obligations.SessionTransitions : Prop :=
  ∀ (i : Instr) (s t : State) (m : Mode), s.Idle → s.mode = some m → exec i s = .next t → t.Idle →
    t.mode = some (modeAfter m i)

/-- E5 of 95_test_vectors.md, from R132 and R133: `enter` and then `exit` come back out of session with a clear flag. -/
def Obligations.EnterThenExitComesBack : Prop :=
  ∀ (s : State) (k : Nat) (v : U8) (w : Target), s.Idle → s.mode = some .outOfSession → s.target.Serves k [v] w →
    ∃ t u, exec .enter s = .next t ∧ t.mode = some .inSession ∧ exec .exit t = .next u ∧ u.mode = some .outOfSession ∧
      u.errorFlag = 0#8

/-! ### The Instruction Layer -/

/-- R161. -/
def Obligations.ReadConfigTransaction : Prop :=
  IsTransaction .readConfig [0x20#8] 1 (fun r => .byte (r.getD 0 0#8)) (.byte 0#8)

/-- R162. -/
def Obligations.WriteConfigTransaction : Prop :=
  ∀ c : U8, IsTransaction (.writeConfig c) [0x18#8, c] 1 (fun r => .byte (r.getD 0 0#8)) (.byte 0#8)

/-- R163. -/
def Obligations.Exec1Transaction : Prop :=
  ∀ oc0 : U8, IsTransaction (.exec1 oc0) [0x51#8, oc0] 1 (fun r => .byte (r.getD 0 0#8)) (.byte 0#8)

/-- R164. -/
def Obligations.Exec2Transaction : Prop :=
  ∀ oc0 oc1 : U8, IsTransaction (.exec2 oc0 oc1) [0x52#8, oc0, oc1] 1 (fun r => .byte (r.getD 0 0#8)) (.byte 0#8)

/-- R165. -/
def Obligations.Exec3Transaction : Prop :=
  ∀ oc0 oc1 oc2 : U8,
    IsTransaction (.exec3 oc0 oc1 oc2) [0x53#8, oc0, oc1, oc2] 1 (fun r => .byte (r.getD 0 0#8)) (.byte 0#8)

/-- R166: the immediate goes high byte first. -/
def Obligations.ExecImm16Transaction : Prop :=
  ∀ (oc0 : U8) (c0 : U16),
    IsTransaction (.execImm16 oc0 c0) [0x53#8, oc0, (c0 >>> 8).truncate 8, c0.truncate 8] 1
      (fun r => .byte (r.getD 0 0#8)) (.byte 0#8)

/-- R167. -/
def Obligations.GetChipIdTransaction : Prop :=
  IsTransaction .getChipId [0x68#8] 2
    (fun r => .word (((r.getD 0 0#8).zeroExtend 16 <<< 8) ||| (r.getD 1 0#8).zeroExtend 16)) (.word 0#16)

/-- R168. -/
def Obligations.GetPCTransaction : Prop :=
  IsTransaction .getPC [0x28#8] 2
    (fun r => .word (((r.getD 0 0#8).zeroExtend 16 <<< 8) ||| (r.getD 1 0#8).zeroExtend 16)) (.word 0#16)

/-- R169. -/
def Obligations.GetStatusTransaction : Prop :=
  IsTransaction .getStatus [0x30#8] 1 (fun r => .byte (r.getD 0 0#8)) (.byte 0#8)

/-- R170. -/
def Obligations.SingleStepTransaction : Prop :=
  IsTransaction .step [0x58#8] 1 (fun r => .byte (r.getD 0 0#8)) (.byte 0#8)

/-- R171: for this engine's `MASS_ERASE_FRAME` and `MASS_ERASE_READS`, whatever they are, the last byte read is the result. -/
def Obligations.MassEraseTransaction : Prop :=
  IsTransaction .massErase Config.massEraseFrame.bytes Config.massEraseReads
    (fun r => .byte (r.getD ((Config.massEraseReads : Nat) - 1) 0#8)) (.byte 0#8)

/-- R172: `exec(ocs)` is the operation of its length; any other length is refused before any check, in every mode. -/
def Obligations.ExecExpandsByLength : Prop :=
  (∀ oc0 : U8, IsTransaction (.exec [oc0]) [0x51#8, oc0] 1 (fun r => .byte (r.getD 0 0#8)) (.byte 0#8)) ∧
    (∀ oc0 oc1 : U8, IsTransaction (.exec [oc0, oc1]) [0x52#8, oc0, oc1] 1 (fun r => .byte (r.getD 0 0#8)) (.byte 0#8)) ∧
    (∀ oc0 oc1 oc2 : U8,
      IsTransaction (.exec [oc0, oc1, oc2]) [0x53#8, oc0, oc1, oc2] 1 (fun r => .byte (r.getD 0 0#8)) (.byte 0#8)) ∧
    ∀ (ocs : List U8) (s : State), ocs.length = 0 ∨ 3 < ocs.length → exec (.exec ocs) s = .next { s with refused := true }

/-- R77, R80: one wire instruction with several host spellings, in every state. -/
def Obligations.SpellingsOfOneWireInstruction : Prop :=
  (∀ (oc0 : U8) (c0 : U16) (s : State),
      exec (.execImm16 oc0 c0) s = exec (.exec3 oc0 ((c0 >>> 8).truncate 8) (c0.truncate 8)) s) ∧
    (∀ (a : U8) (s : State), exec (.exec [a]) s = exec (.exec1 a) s) ∧
    (∀ (a b : U8) (s : State), exec (.exec [a, b]) s = exec (.exec2 a b) s) ∧
    ∀ (a b c : U8) (s : State), exec (.exec [a, b, c]) s = exec (.exec3 a b c) s

/-- R160: the number of events of an accepted transaction. -/
def Obligations.TransactionEventCount : Prop :=
  ∀ (i : Instr) (s : State) (k : Nat) (r : List U8) (t : Target), isTransaction i = true → s.Idle → s.active = true →
    s.inSession = true → r.length = bytesRead i → s.target.Serves k r t →
    ∃ u, exec i s = .next u ∧
      u.trace.length =
        s.trace.length + 40 * (encode i).length + 40 * bytesRead i + 7 + 33 * k + if s.direction = .drive then 0 else 3

/-- R160: after an accepted transaction that returns, whatever the target answered, the data line is driven 0, the clock rests 0 and
DD_I is an input. -/
def Obligations.TransactionLeavesTheLinesAtRest : Prop :=
  ∀ (i : Instr) (s t : State), isTransaction i = true → s.Idle → s.active = true → s.inSession = true → exec i s = .next t →
    t.Idle →
    t.pins.ddo = { mode := .output, level := false } ∧ t.pins.dc.level = false ∧ t.pins.ddi.mode = .input ∧
      t.pins.rst = s.pins.rst ∧ t.direction = .drive ∧ t.errorFlag = 0#8 ∧ t.active = true ∧ (t.inSession = true ↔ i ≠ .exit)

/-- R11, R160: an accepted transaction that returns is the sequence of primitive calls it is written from: on a clear flag, calling
the primitives one after the other leaves the same state, whatever the target answers and whatever `PRIM_CLEARS_ERROR` is, but for
the result. -/
def Obligations.TransactionIsItsPrimitiveCalls : Prop :=
  ∀ (i : Instr) (s u : State), isTransaction i = true → i ≠ .exit → s.Idle → s.active = true → s.inSession = true →
    s.errorFlag = 0#8 → exec i s = .next u → u.Idle →
    ∃ v,
      runCalls ((encode i).map .writeByte ++ [.awaitReadable] ++ List.replicate (bytesRead i) .readByte ++ [.setDirection .drive])
        s = some v ∧ u = { v with result := u.result }

/-! ### Errors and refusals -/

/-- R203, with the table of R202: a call that checks `active` reports error 1 on an inactive engine, also when it needs a session that
is not there, and touches nothing but the flag and its result; `enter` does so too, and `exec` of a length without a frame is refused
before any check. -/
def Obligations.InactiveCallsReportErrorOne : Prop :=
  (∀ (i : Instr) (s : State), needsActive i = true → s.Idle → s.active = false →
      exec i s = .next { s with errorFlag := 1#8, result := rejectionResult i }) ∧
    ∀ (ocs : List U8) (s : State), s.Idle → s.active = false → ocs.length = 0 ∨ 3 < ocs.length →
      exec (.exec ocs) s = .next { s with refused := true }

/-- R202, R204: a call that needs a session reports error 2 out of session and touches nothing but the flag and its result. -/
def Obligations.OutOfSessionCallsReportErrorTwo : Prop :=
  ∀ (i : Instr) (s : State), needsSession i = true → s.Idle → s.active = true → s.inSession = false →
    exec i s = .next { s with errorFlag := 2#8, result := rejectionResult i }

/-- R209, R214: the calls outside the contract set `refused` and change nothing else: any call while another is in flight, `enter` in
session, `exec` of a length without a frame. -/
def Obligations.CallsOutsideTheContractAreRefused : Prop :=
  (∀ (i : Instr) (s : State), ¬ s.Idle → exec i s = .next { s with refused := true }) ∧
    (∀ s : State, s.Idle → s.active = true → s.inSession = true → exec .enter s = .next { s with refused := true }) ∧
    ∀ (ocs : List U8) (s : State), s.Idle → ocs.length = 0 ∨ 3 < ocs.length →
      exec (.exec ocs) s = .next { s with refused := true }

/-- R31: `refused` is never cleared and no rule reads it: with the mark set a call does what it does without it. -/
def Obligations.RefusedMarkStaysAndIsNotRead : Prop :=
  (∀ (i : Instr) (s t : State), exec i s = .next t → s.refused = true → t.refused = true) ∧
    ∀ (i : Instr) (s t : State), exec i s = .next t → exec i { s with refused := true } = .next { t with refused := true }

/-- R20: the trace is output: no call reads it, and each only adds to it. -/
def Obligations.TraceIsNotRead : Prop :=
  ∀ (i : Instr) (s t : State), exec i s = .next t →
    ∃ es, t.trace = s.trace ++ es ∧
      ∀ tr : List Event, exec i { s with trace := tr } = .next { t with trace := tr ++ es }

/-! ### Frames -/

/-- R21, R22: `active` is written by `activate` alone; `inSession` by `activate`, `enter` and `exit` alone. -/
def Obligations.ModeFlagsWrittenOnlyBySessionCalls : Prop :=
  ∀ (i : Instr) (s t : State), exec i s = .next t → (∀ on, i ≠ .activate on) →
    t.active = s.active ∧ (i ≠ .enter → i ≠ .exit → t.inSession = s.inSession)

/-- R28: RST's configuration is written by `activate` and its level by `activate` and `enter` alone. -/
def Obligations.ResetLineWrittenOnlyByActivateAndEnter : Prop :=
  ∀ (i : Instr) (s t : State), exec i s = .next t → (∀ on, i ≠ .activate on) →
    t.pins.rst.mode = s.pins.rst.mode ∧ (i ≠ .enter → t.pins.rst.level = s.pins.rst.level)

/-- R51, R79, R213: a call writes no byte but those of its frame, and leaves the host's script alone. -/
def Obligations.CallsWriteOnlyTheirFrame : Prop :=
  ∀ (i : Instr) (s t : State), exec i s = .next t →
    (t.written = s.written ∨ t.written = s.written ++ encode i) ∧ t.calls = s.calls

/-- R58, R213: calls that take no sample leave the target as it was: `setDirection`, `writeByte`, `activate`, `enter` and
`getError`. -/
def Obligations.CallsWithoutSamplesLeaveTheTarget : Prop :=
  ∀ (i : Instr) (s t : State), exec i s = .next t → isTransaction i = false → i ≠ .readByte → i ≠ .awaitReadable →
    t.target = s.target

/-! ### Fixtures and timing -/

/-- E4 of 95_test_vectors.md as D27 (a) reads it (log entry 14): in session on the round-trip fixture a byte written is the byte
read next, for all 256 values. -/
def Obligations.RoundTripFixtureReturnsTheByte : Prop :=
  ∀ (x : U8) (s : State), s.Idle → s.active = true → s.inSession = true → s.target.fixture = .roundTrip →
    ∃ t u, exec (.writeByte x) s = .next t ∧ exec .readByte t = .next u ∧ u.result = .byte x ∧
      u.trace = s.trace ++ switch s.direction .drive ++ WB x ++ SMP ++ RB x

/-- E6 of 95_test_vectors.md as D27 (b) reads it (log entry 14): on the config fixture a written configuration is echoed and read
back. -/
def Obligations.ConfigFixtureEchoesTheConfiguration : Prop :=
  ∀ (c : U8) (s : State), s.Idle → s.active = true → s.inSession = true → s.target.fixture = .configEcho → s.written = [] →
    ∃ t u, exec (.writeConfig c) s = .next t ∧ t.result = .byte c ∧ exec .readConfig t = .next u ∧ u.result = .byte c

/-- R246: the holds of a written byte, of the entry sequence and of a busy burst, under every value of the durations; the platform's
time per pin event comes on top. That one step of an operation in flight is one burst is the model's (log entry 1). -/
def Obligations.HoldsTakeTheirDurations : Prop :=
  (∀ (v : U8) (s t : State), s.Idle → s.active = true → s.inSession = true → exec (.writeByte v) s = .next t →
      holdTime t.trace = holdTime s.trace + 8 * (2 * (Config.duration .tick : Nat))) ∧
    (∀ s t : State, s.Idle → s.active = true → s.inSession = false → exec .enter s = .next t →
      holdTime t.trace = holdTime s.trace + 2 * (Config.duration .entry : Nat) + 4 * (Config.duration .tick : Nat)) ∧
    ∀ (s t : State) (k : InFlight) (rest : List Bit), s.inFlight = some k → s.target.fixture = .pins →
      s.target.answers = true :: rest → step s = .next t →
      holdTime t.trace = holdTime s.trace + 16 * (Config.duration .tick : Nat)

/-- R53, R75: the first byte read is the high byte of a two-byte result. -/
def Obligations.TwoByteResultsAreBigEndian : Prop :=
  ∀ (i : Instr) (s : State) (k : Nat) (b0 b1 : U8) (t : Target), i = .getChipId ∨ i = .getPC → s.Idle → s.active = true →
    s.inSession = true → s.target.Serves k [b0, b1] t →
    ∃ u w, exec i s = .next u ∧ u.result = .word w ∧ w.toNat = 256 * b0.toNat + b1.toNat
end

