-- ==== Sys2Proof/Laws/State.lean ====
section
/-! SUPPORT. One lemma per field of State per update, so that no later proof unfolds a record update. -/

namespace Sys2Proof.Machine

@[simp] theorem State.emit_active (s : State) (e : Event) : (s.emit e).active = s.active := rfl
@[simp] theorem State.emit_inSession (s : State) (e : Event) : (s.emit e).inSession = s.inSession := rfl
@[simp] theorem State.emit_direction (s : State) (e : Event) : (s.emit e).direction = s.direction := rfl
@[simp] theorem State.emit_errorFlag (s : State) (e : Event) : (s.emit e).errorFlag = s.errorFlag := rfl
@[simp] theorem State.emit_pins (s : State) (e : Event) : (s.emit e).pins = s.pins.apply e := rfl
@[simp] theorem State.emit_refused (s : State) (e : Event) : (s.emit e).refused = s.refused := rfl
@[simp] theorem State.emit_inFlight (s : State) (e : Event) : (s.emit e).inFlight = s.inFlight := rfl
@[simp] theorem State.emit_result (s : State) (e : Event) : (s.emit e).result = s.result := rfl
@[simp] theorem State.emit_trace (s : State) (e : Event) : (s.emit e).trace = s.trace ++ [e] := rfl
@[simp] theorem State.emit_written (s : State) (e : Event) : (s.emit e).written = s.written := rfl
@[simp] theorem State.emit_target (s : State) (e : Event) : (s.emit e).target = s.target := rfl
@[simp] theorem State.emit_calls (s : State) (e : Event) : (s.emit e).calls = s.calls := rfl

@[simp] theorem State.done_active (s : State) (r : Result) : (s.done r).active = s.active := rfl
@[simp] theorem State.done_inSession (s : State) (r : Result) : (s.done r).inSession = s.inSession := rfl
@[simp] theorem State.done_direction (s : State) (r : Result) : (s.done r).direction = s.direction := rfl
@[simp] theorem State.done_errorFlag (s : State) (r : Result) : (s.done r).errorFlag = s.errorFlag := rfl
@[simp] theorem State.done_pins (s : State) (r : Result) : (s.done r).pins = s.pins := rfl
@[simp] theorem State.done_refused (s : State) (r : Result) : (s.done r).refused = s.refused := rfl
@[simp] theorem State.done_inFlight (s : State) (r : Result) : (s.done r).inFlight = none := rfl
@[simp] theorem State.done_result (s : State) (r : Result) : (s.done r).result = r := rfl
@[simp] theorem State.done_trace (s : State) (r : Result) : (s.done r).trace = s.trace := rfl
@[simp] theorem State.done_written (s : State) (r : Result) : (s.done r).written = s.written := rfl
@[simp] theorem State.done_target (s : State) (r : Result) : (s.done r).target = s.target := rfl
@[simp] theorem State.done_calls (s : State) (r : Result) : (s.done r).calls = s.calls := rfl

@[simp] theorem State.reject_active (s : State) (c : U8) (r : Result) : (s.reject c r).active = s.active := rfl
@[simp] theorem State.reject_inSession (s : State) (c : U8) (r : Result) : (s.reject c r).inSession = s.inSession := rfl
@[simp] theorem State.reject_direction (s : State) (c : U8) (r : Result) : (s.reject c r).direction = s.direction := rfl
@[simp] theorem State.reject_errorFlag (s : State) (c : U8) (r : Result) : (s.reject c r).errorFlag = c := rfl
@[simp] theorem State.reject_pins (s : State) (c : U8) (r : Result) : (s.reject c r).pins = s.pins := rfl
@[simp] theorem State.reject_refused (s : State) (c : U8) (r : Result) : (s.reject c r).refused = s.refused := rfl
@[simp] theorem State.reject_inFlight (s : State) (c : U8) (r : Result) : (s.reject c r).inFlight = none := rfl
@[simp] theorem State.reject_result (s : State) (c : U8) (r : Result) : (s.reject c r).result = r := rfl
@[simp] theorem State.reject_trace (s : State) (c : U8) (r : Result) : (s.reject c r).trace = s.trace := rfl
@[simp] theorem State.reject_written (s : State) (c : U8) (r : Result) : (s.reject c r).written = s.written := rfl
@[simp] theorem State.reject_target (s : State) (c : U8) (r : Result) : (s.reject c r).target = s.target := rfl
@[simp] theorem State.reject_calls (s : State) (c : U8) (r : Result) : (s.reject c r).calls = s.calls := rfl

@[simp] theorem State.refuse_active (s : State) : (s.refuse).active = s.active := rfl
@[simp] theorem State.refuse_inSession (s : State) : (s.refuse).inSession = s.inSession := rfl
@[simp] theorem State.refuse_direction (s : State) : (s.refuse).direction = s.direction := rfl
@[simp] theorem State.refuse_errorFlag (s : State) : (s.refuse).errorFlag = s.errorFlag := rfl
@[simp] theorem State.refuse_pins (s : State) : (s.refuse).pins = s.pins := rfl
@[simp] theorem State.refuse_refused (s : State) : (s.refuse).refused = true := rfl
@[simp] theorem State.refuse_inFlight (s : State) : (s.refuse).inFlight = s.inFlight := rfl
@[simp] theorem State.refuse_result (s : State) : (s.refuse).result = s.result := rfl
@[simp] theorem State.refuse_trace (s : State) : (s.refuse).trace = s.trace := rfl
@[simp] theorem State.refuse_written (s : State) : (s.refuse).written = s.written := rfl
@[simp] theorem State.refuse_target (s : State) : (s.refuse).target = s.target := rfl
@[simp] theorem State.refuse_calls (s : State) : (s.refuse).calls = s.calls := rfl

@[simp] theorem State.withCall_active (s : State) (i : Instr) : (s.withCall i).active = s.active := rfl
@[simp] theorem State.withCall_inSession (s : State) (i : Instr) : (s.withCall i).inSession = s.inSession := rfl
@[simp] theorem State.withCall_direction (s : State) (i : Instr) : (s.withCall i).direction = s.direction := rfl
@[simp] theorem State.withCall_errorFlag (s : State) (i : Instr) : (s.withCall i).errorFlag = s.errorFlag := rfl
@[simp] theorem State.withCall_pins (s : State) (i : Instr) : (s.withCall i).pins = s.pins := rfl
@[simp] theorem State.withCall_refused (s : State) (i : Instr) : (s.withCall i).refused = s.refused := rfl
@[simp] theorem State.withCall_inFlight (s : State) (i : Instr) : (s.withCall i).inFlight = none := rfl
@[simp] theorem State.withCall_result (s : State) (i : Instr) : (s.withCall i).result = s.result := rfl
@[simp] theorem State.withCall_trace (s : State) (i : Instr) : (s.withCall i).trace = s.trace := rfl
@[simp] theorem State.withCall_written (s : State) (i : Instr) : (s.withCall i).written = s.written := rfl
@[simp] theorem State.withCall_target (s : State) (i : Instr) : (s.withCall i).target = s.target := rfl
@[simp] theorem State.withCall_calls (s : State) (i : Instr) : (s.withCall i).calls = i :: s.calls := rfl

@[simp] theorem clearError_active (s : State) : (clearError s).active = s.active := rfl
@[simp] theorem clearError_inSession (s : State) : (clearError s).inSession = s.inSession := rfl
@[simp] theorem clearError_direction (s : State) : (clearError s).direction = s.direction := rfl
@[simp] theorem clearError_errorFlag (s : State) : (clearError s).errorFlag = 0#8 := rfl
@[simp] theorem clearError_pins (s : State) : (clearError s).pins = s.pins := rfl
@[simp] theorem clearError_refused (s : State) : (clearError s).refused = s.refused := rfl
@[simp] theorem clearError_inFlight (s : State) : (clearError s).inFlight = s.inFlight := rfl
@[simp] theorem clearError_result (s : State) : (clearError s).result = s.result := rfl
@[simp] theorem clearError_trace (s : State) : (clearError s).trace = s.trace := rfl
@[simp] theorem clearError_written (s : State) : (clearError s).written = s.written := rfl
@[simp] theorem clearError_target (s : State) : (clearError s).target = s.target := rfl
@[simp] theorem clearError_calls (s : State) : (clearError s).calls = s.calls := rfl

@[simp] theorem State.emitAll_nil (s : State) : s.emitAll [] = s := rfl

theorem State.emitAll_cons (s : State) (e : Event) (es : List Event) : s.emitAll (e :: es) = (s.emit e).emitAll es := rfl

theorem State.emitAll_append (s : State) (es fs : List Event) : s.emitAll (es ++ fs) = (s.emitAll es).emitAll fs :=
  List.foldl_append

@[simp] theorem State.emitAll_active (s : State) (es : List Event) : (s.emitAll es).active = s.active := by
  induction es generalizing s with
  | nil => rfl
  | cons e es ih => simp [State.emitAll_cons, ih]

@[simp] theorem State.emitAll_inSession (s : State) (es : List Event) : (s.emitAll es).inSession = s.inSession := by
  induction es generalizing s with
  | nil => rfl
  | cons e es ih => simp [State.emitAll_cons, ih]

@[simp] theorem State.emitAll_direction (s : State) (es : List Event) : (s.emitAll es).direction = s.direction := by
  induction es generalizing s with
  | nil => rfl
  | cons e es ih => simp [State.emitAll_cons, ih]

@[simp] theorem State.emitAll_errorFlag (s : State) (es : List Event) : (s.emitAll es).errorFlag = s.errorFlag := by
  induction es generalizing s with
  | nil => rfl
  | cons e es ih => simp [State.emitAll_cons, ih]

@[simp] theorem State.emitAll_pins (s : State) (es : List Event) : (s.emitAll es).pins = es.foldl Pins.apply s.pins := by
  induction es generalizing s with
  | nil => rfl
  | cons e es ih => simp [State.emitAll_cons, ih]

@[simp] theorem State.emitAll_refused (s : State) (es : List Event) : (s.emitAll es).refused = s.refused := by
  induction es generalizing s with
  | nil => rfl
  | cons e es ih => simp [State.emitAll_cons, ih]

@[simp] theorem State.emitAll_inFlight (s : State) (es : List Event) : (s.emitAll es).inFlight = s.inFlight := by
  induction es generalizing s with
  | nil => rfl
  | cons e es ih => simp [State.emitAll_cons, ih]

@[simp] theorem State.emitAll_result (s : State) (es : List Event) : (s.emitAll es).result = s.result := by
  induction es generalizing s with
  | nil => rfl
  | cons e es ih => simp [State.emitAll_cons, ih]

@[simp] theorem State.emitAll_trace (s : State) (es : List Event) : (s.emitAll es).trace = s.trace ++ es := by
  induction es generalizing s with
  | nil => simp
  | cons e es ih => simp [State.emitAll_cons, ih]

@[simp] theorem State.emitAll_written (s : State) (es : List Event) : (s.emitAll es).written = s.written := by
  induction es generalizing s with
  | nil => rfl
  | cons e es ih => simp [State.emitAll_cons, ih]

@[simp] theorem State.emitAll_target (s : State) (es : List Event) : (s.emitAll es).target = s.target := by
  induction es generalizing s with
  | nil => rfl
  | cons e es ih => simp [State.emitAll_cons, ih]

@[simp] theorem State.emitAll_calls (s : State) (es : List Event) : (s.emitAll es).calls = s.calls := by
  induction es generalizing s with
  | nil => rfl
  | cons e es ih => simp [State.emitAll_cons, ih]

/-- A list of events only adds to the trace and acts on the pins (R13, R60). -/
theorem State.emitAll_eq (s : State) (es : List Event) :
    s.emitAll es = { s with pins := es.foldl Pins.apply s.pins, trace := s.trace ++ es } := by
  induction es generalizing s with
  | nil => simp
  | cons e es ih => simp [State.emitAll_cons, ih, State.emit]

end Sys2Proof.Machine
end

