-- ==== Sys2Proof/Laws/Ops.lean ====
section
/-! SUPPORT. One lemma per shared operation, saying once everything it does: the events it emits in the notation of rule R14, and
the fields it writes. -/

namespace Sys2Proof.Machine

open Sys2Proof.Trace

/-! ### The clock and the direction -/

theorem State.pulse_eq (s : State) : s.pulse = s.emitAll P := rfl

theorem State.pulses_eq (n : Nat) (s : State) : State.pulses n s = s.emitAll (List.replicate n P).flatten := by
  induction n generalizing s with
  | zero => rfl
  | succ n ih => simp [State.pulses, ih, State.pulse_eq, List.replicate_succ, State.emitAll_append]

theorem State.burst_eq (s : State) : State.pulses 8 s = s.emitAll P8 := rfl

theorem State.switchDirection_eq (s : State) (d : Direction) :
    s.switchDirection d = { s.emitAll (switch s.direction d) with direction := d } := by
  obtain ⟨_, _, dir, _⟩ := s
  cases d <;> cases dir <;> rfl

theorem State.switchDirection_self (s : State) : s.switchDirection s.direction = s := by
  simp [State.switchDirection]

/-! ### Writing -/

theorem State.shiftOut_eq (v : U8) (s : State) : State.shiftOut v 8 s = s.emitAll (WB v) := rfl

/-- `writeByte`'s body (R102). -/
theorem State.writeBits_eq (s : State) (v : U8) :
    s.writeBits v =
      { s.emitAll (switch s.direction .drive ++ WB v) with direction := .drive, written := s.written ++ [v] } := by
  simp only [State.writeBits, State.switchDirection_eq, State.shiftOut_eq]
  simp only [State.emitAll_eq, List.foldl_append, List.append_assoc]

/-- The bytes of a frame, in order (R160). -/
theorem State.writeFrame_eq (b : U8) (frame : List U8) (s : State) :
    State.writeFrame (b :: frame) s =
      { s.emitAll (switch s.direction .drive ++ (b :: frame).flatMap WB) with
        direction := .drive, written := s.written ++ b :: frame } := by
  induction frame generalizing b s with
  | nil => simp [State.writeFrame, State.writeBits_eq]
  | cons c frame ih =>
    rw [State.writeFrame, ih, State.writeBits_eq]
    simp [State.emitAll_eq, switch]

/-! ### Sampling -/

/-- The next answer of a target with a settled one (R34). -/
theorem Target.next_settled (t : Target) (b : Bit) (rest : List Bit) (h : t.answers = b :: rest) :
    t.next = (b, { t with answers := rest }) := by
  simp [Target.next, h]

/-- The next `n` answers of a target, and the target after them. -/
def Target.take : Nat → Target → List Bit × Target
  | 0, t => ([], t)
  | n + 1, t => (t.next.1 :: (Target.take n t.next.2).1, (Target.take n t.next.2).2)

theorem Target.take_length (n : Nat) (t : Target) : (Target.take n t).1.length = n := by
  induction n generalizing t with
  | zero => rfl
  | succ n ih => simp [Target.take, ih]

/-- Settled answers are given in order. -/
theorem Target.take_settled (bits rest : List Bit) (t : Target) (h : t.answers = bits ++ rest) :
    Target.take bits.length t = (bits, { t with answers := rest }) := by
  induction bits generalizing t with
  | nil => cases t; simp_all [Target.take]
  | cons b bits ih =>
    have h1 := t.next_settled b (bits ++ rest) (by simpa using h)
    simp [Target.take, h1, ih { t with answers := bits ++ rest } rfl]

theorem Target.next_fixture (t : Target) : t.next.2.fixture = t.fixture := by
  unfold Target.next; split <;> rfl

/-- Bits shifted into a byte one after the other (R103). -/
def shiftInAll (r : U8) (bits : List Bit) : U8 := bits.foldl shiftInBit r

/-- `n` read bit cells (R103): the answers of the target, shifted in. -/
theorem State.shiftIn_eq (n : Nat) (r : U8) (s : State) :
    State.shiftIn n r s =
      (shiftInAll r (Target.take n s.target).1,
        { s.emitAll ((Target.take n s.target).1.flatMap Rd) with target := (Target.take n s.target).2 }) := by
  induction n generalizing r s with
  | zero => rfl
  | succ n ih =>
    simp only [State.shiftIn, State.pinSample, ih]
    simp [Target.take, shiftInAll, State.emitAll_eq, State.pinSet, State.hold, State.emit, Rd]

/-- Eight bits shifted into 0, most significant first, are the byte whose bits they are (R52, R103). -/
theorem shiftInAll_spells :
    ∀ b7 b6 b5 b4 b3 b2 b1 b0 : Bit, msbFirst (shiftInAll 0 [b7, b6, b5, b4, b3, b2, b1, b0]) =
      [b7, b6, b5, b4, b3, b2, b1, b0] := by decide

theorem msbFirst_shiftInAll (bits : List Bit) (h : bits.length = 8) : msbFirst (shiftInAll 0 bits) = bits := by
  obtain ⟨b7, b6, b5, b4, b3, b2, b1, b0, rfl⟩ : ∃ b7 b6 b5 b4 b3 b2 b1 b0, bits = [b7, b6, b5, b4, b3, b2, b1, b0] := by
    match bits, h with
    | [b7, b6, b5, b4, b3, b2, b1, b0], _ => exact ⟨b7, b6, b5, b4, b3, b2, b1, b0, rfl⟩
  exact shiftInAll_spells _ _ _ _ _ _ _ _

/-- A byte is its bits. -/
theorem msbFirst_injective {v w : U8} (h : msbFirst v = msbFirst w) : v = w := by
  simp only [msbFirst, List.cons.injEq] at h
  obtain ⟨h7, h6, h5, h4, h3, h2, h1, h0, -⟩ := h
  apply BitVec.eq_of_getLsbD_eq
  intro i hi
  match i, hi with
  | 0, _ => exact h0
  | 1, _ => exact h1
  | 2, _ => exact h2
  | 3, _ => exact h3
  | 4, _ => exact h4
  | 5, _ => exact h5
  | 6, _ => exact h6
  | 7, _ => exact h7

theorem shiftInAll_msbFirst (v : U8) : shiftInAll 0 (msbFirst v) = v :=
  msbFirst_injective (msbFirst_shiftInAll _ rfl)

theorem RB_eq (v : U8) : RB v = (msbFirst v).flatMap Rd := rfl

theorem wireBits_eq (v : U8) : wireBits v = msbFirst v := rfl

/-- The target while a byte is read: what its fixture settles, then eight answers (R103, R213). -/
def Target.readStep (written : List U8) (t : Target) : U8 × Target :=
  (shiftInAll 0 (Target.take 8 (t.cueRead written)).1, (Target.take 8 (t.cueRead written)).2)

/-- `readByte`'s body (R103): whatever the target answers, the trace shows the byte read. -/
theorem State.readBits_eq (s : State) :
    s.readBits =
      ((s.target.readStep s.written).1,
        { s.emitAll (switch s.direction .sample ++ RB (s.target.readStep s.written).1) with
          direction := .sample, target := (s.target.readStep s.written).2 }) := by
  simp only [State.readBits, State.switchDirection_eq, State.shiftIn_eq, RB_eq, Target.readStep,
    msbFirst_shiftInAll _ (Target.take_length _ _), State.emitAll_target, State.emitAll_written]
  simp [State.emitAll_eq]

/-- The bytes of a result as the target settles them, and the target after them. -/
def Target.readSteps (written : List U8) : Nat → Target → List U8 × Target
  | 0, t => ([], t)
  | n + 1, t =>
    ((t.readStep written).1 :: (Target.readSteps written n (t.readStep written).2).1,
      (Target.readSteps written n (t.readStep written).2).2)

theorem Target.readSteps_length (written : List U8) (n : Nat) (t : Target) : (Target.readSteps written n t).1.length = n := by
  induction n generalizing t with
  | zero => rfl
  | succ n ih => simp [Target.readSteps, ih]

/-- `n` bytes read back to back while sampling (R160). -/
theorem State.readResult_eq (n : Nat) (s : State) (h : s.direction = .sample) :
    State.readResult n s =
      ((Target.readSteps s.written n s.target).1,
        { s.emitAll ((Target.readSteps s.written n s.target).1.flatMap RB) with
          target := (Target.readSteps s.written n s.target).2 }) := by
  induction n generalizing s with
  | zero => rfl
  | succ n ih =>
    have h2 : (s.readBits).2.direction = .sample := by simp [State.readBits_eq]
    simp only [State.readResult, ih _ h2]
    simp [State.readBits_eq, h, switch, Target.readSteps, State.emitAll_eq]

/-! ### The end of an operation -/

/-- The fields a finished transaction writes (R133, R160). -/
def State.concluded (s : State) (r : List U8) : Finish → State
  | .lastByte => { s with inFlight := none, result := .byte (lastByteRead r) }
  | .word16 => { s with inFlight := none, result := .word (wordRead r) }
  | .leaveSession => { s with inFlight := none, result := .byte 0, inSession := false }

theorem State.conclude_eq (s : State) (r : List U8) (fin : Finish) : s.conclude r fin = s.concluded r fin := by
  cases fin <;> rfl

/-- What follows the handshake of a transaction (R160): the reads and the switch to drive. -/
theorem State.afterReady_transaction (s : State) (n : Nat) (fin : Finish) (h : s.direction = .sample) :
    s.afterReady (.transaction n fin) =
      ({ s.emitAll ((Target.readSteps s.written n s.target).1.flatMap RB ++ DRV) with
          direction := .drive, target := (Target.readSteps s.written n s.target).2 }).concluded
        (Target.readSteps s.written n s.target).1 fin := by
  simp only [State.afterReady, State.readResult_eq n s h, State.switchDirection_eq, State.conclude_eq]
  simp [State.emitAll_eq, h, switch]

theorem State.afterReady_handshake (s : State) : s.afterReady .handshake = s.done .nothing := rfl

/-! ### The wait -/

theorem State.pinSample_eq (s : State) :
    s.pinSample = (s.target.next.1, { s.emitAll [.pinSample .ddi s.target.next.1] with target := s.target.next.2 }) := rfl

/-- A busy turn of the loop (R104). -/
theorem State.poll_busy (k : InFlight) (n : Nat) (s : State) (h : s.target.next.1 = true) :
    State.poll k (n + 1) s =
      State.poll k n { s.emitAll (.pinSample .ddi true :: P8) with target := s.target.next.2 } := by
  simp only [State.poll, State.pinSample_eq, h, State.burst_eq]
  simp [State.emitAll_eq]

/-- The turn that finds the target ready (R104). -/
theorem State.poll_ready (k : InFlight) (n : Nat) (s : State) (h : s.target.next.1 = false) :
    State.poll k (n + 1) s =
      State.afterReady { s.emitAll [.pinSample .ddi false, .hold .settle] with target := s.target.next.2 } k := by
  simp only [State.poll, State.pinSample_eq, h, State.hold]
  simp [State.emitAll_eq, State.emit]

/-- `j` settled busy answers cost `j` turns. -/
theorem State.poll_replicate (k : InFlight) (j n : Nat) (rest : List Bit) (s : State)
    (h : s.target.answers = List.replicate j true ++ rest) :
    State.poll k (j + n) s =
      State.poll k n { s.emitAll (busy j) with target := { s.target with answers := rest } } := by
  induction j generalizing s with
  | zero =>
    obtain ⟨_, _, _, _, _, _, _, _, _, _, ⟨_, _, _⟩, _⟩ := s
    simp_all [busy]
  | succ j ih =>
    have hn := s.target.next_settled true (List.replicate j true ++ rest) (by simpa [List.replicate_succ] using h)
    rw [Nat.succ_add, State.poll_busy _ _ _ (by rw [hn]), hn]
    rw [ih _ rfl]
    simp [State.emitAll_eq, busy]

/-- The handshake of a target that answers `j` times busy and then ready (R104). -/
theorem State.poll_settled (k : InFlight) (j n : Nat) (rest : List Bit) (s : State)
    (h : s.target.answers = List.replicate j true ++ false :: rest) :
    State.poll k (j + n + 1) s =
      State.afterReady
        { s.emitAll (busy j ++ [.pinSample .ddi false, .hold .settle]) with
          target := { s.target with answers := rest } } k := by
  have hn := Target.next_settled { s.target with answers := false :: rest } false rest rfl
  rw [Nat.add_assoc, State.poll_replicate k j (n + 1) _ s h, State.poll_ready _ _ _ (by simp only [hn])]
  simp only [hn]
  simp [State.emitAll_eq]

/-- The loop of `awaitReadable` (R104), whatever the target answers: either it finds the target ready after `j` busy turns, or it is
still in flight after all `n`. -/
theorem State.poll_cases (k : InFlight) (n : Nat) (s : State) :
    (∃ j t, j < n ∧ t.fixture = s.target.fixture ∧
        State.poll k n s =
          State.afterReady
            { s.emitAll (busy j ++ [.pinSample .ddi false, .hold .settle]) with target := t } k) ∨
      ∃ t, t.fixture = s.target.fixture ∧
        State.poll k n s = { s.emitAll (busy n) with target := t, inFlight := some k } := by
  induction n generalizing s with
  | zero => exact .inr ⟨s.target, rfl, rfl⟩
  | succ n ih =>
    cases hb : s.target.next.1 with
    | false =>
      exact .inl ⟨0, s.target.next.2, Nat.succ_pos n, s.target.next_fixture, State.poll_ready k n s hb⟩
    | true =>
      rw [State.poll_busy k n s hb]
      rcases ih { s.emitAll (.pinSample .ddi true :: P8) with target := s.target.next.2 } with
        ⟨j, t, hj, hf, h⟩ | ⟨t, hf, h⟩
      · refine .inl ⟨j + 1, t, Nat.succ_lt_succ hj, hf.trans s.target.next_fixture, ?_⟩
        rw [h]; simp [State.emitAll_eq, busy]
      · refine .inr ⟨t, hf.trans s.target.next_fixture, ?_⟩
        rw [h]; simp [State.emitAll_eq, busy]

/-- The start of a wait (R104): the direction, the settle hold and what the fixture settles, then the loop. -/
theorem State.await_eq (s : State) (k : InFlight) :
    s.await k =
      State.poll k s.target.cuePoll.answers.length
        { s.emitAll (switch s.direction .sample ++ [.hold .settle]) with
          direction := .sample, target := s.target.cuePoll } := by
  simp only [State.await, State.switchDirection_eq, State.hold]
  simp [State.emitAll_eq, State.emit]

theorem State.resume_eq (s : State) (k : InFlight) :
    s.resume k = State.poll k 1 { s with target := s.target.cuePoll } := rfl

/-- A wait (R104), whatever the target answers: it finds the target ready after some busy turns, or is in flight after them. -/
theorem State.await_cases (s : State) (k : InFlight) :
    ∃ j t, t.fixture = s.target.fixture ∧
      (s.await k =
          State.afterReady
            { s.emitAll (switch s.direction .sample ++ handshake j) with direction := .sample, target := t } k ∨
        s.await k =
          { s.emitAll (switch s.direction .sample ++ .hold .settle :: busy j) with
            direction := .sample, target := t, inFlight := some k }) := by
  have hf : s.target.cuePoll.fixture = s.target.fixture := by unfold Target.cuePoll; split <;> rfl
  rw [State.await_eq]
  rcases State.poll_cases k s.target.cuePoll.answers.length
      { s.emitAll (switch s.direction .sample ++ [.hold .settle]) with direction := .sample, target := s.target.cuePoll } with
    ⟨j, t, -, ht, h⟩ | ⟨t, ht, h⟩
  · refine ⟨j, t, ht.trans hf, .inl ?_⟩
    rw [h]; simp [State.emitAll_eq, handshake]
  · refine ⟨s.target.cuePoll.answers.length, t, ht.trans hf, .inr ?_⟩
    rw [h]; simp [State.emitAll_eq]

/-- The bytes a target gives next: those queued at the pins, or those of the adapter's script. -/
def Target.Reads (t : Target) (bytes : List U8) (t' : Target) : Prop :=
  t.Gives (bytes.flatMap msbFirst) t' ∨
    ∃ script, t.fixture = .adapter (bytes ++ script) ∧ t.answers = [] ∧
      t' = { t with fixture := .adapter script, answers := [] }

/-- The handshake of a target that serves it (R104, R213). -/
theorem State.await_serves (s : State) (k : InFlight) (j : Nat) (bytes : List U8) (t' : Target)
    (h : s.target.Serves j bytes t') :
    ∃ t, t.Reads bytes t' ∧
      s.await k =
        State.afterReady
          { s.emitAll (switch s.direction .sample ++ handshake j) with direction := .sample, target := t } k := by
  rw [State.await_eq]
  rcases h with ⟨hf, ha, ht⟩ | ⟨rfl, script, hf, ht⟩
  · refine ⟨{ s.target with answers := bytes.flatMap msbFirst ++ t'.answers }, .inl ⟨hf, rfl, ht⟩, ?_⟩
    have hc : s.target.cuePoll = s.target := by simp [Target.cuePoll, hf]
    have hl : s.target.answers = List.replicate j true ++ false :: (bytes.flatMap msbFirst ++ t'.answers) := by
      simpa using ha
    have hn : s.target.answers.length = j + (bytes.flatMap msbFirst ++ t'.answers).length + 1 := by
      rw [hl]; simp only [List.length_append, List.length_replicate, List.length_cons]; omega
    rw [hc, hn]
    refine (State.poll_settled k j _ (bytes.flatMap msbFirst ++ t'.answers)
      { s.emitAll (switch s.direction .sample ++ [.hold .settle]) with direction := .sample, target := s.target } hl).trans ?_
    simp [State.emitAll_eq, handshake]
  · refine ⟨{ s.target with answers := [] }, .inr ⟨script, hf, rfl, ht⟩, ?_⟩
    have hc : s.target.cuePoll = { s.target with answers := [false] } := by simp [Target.cuePoll, hf]
    rw [hc, show ([false] : List Bit).length = 0 + 0 + 1 from rfl]
    refine (State.poll_settled k 0 0 []
      { s.emitAll (switch s.direction .sample ++ [.hold .settle]) with
        direction := .sample, target := { s.target with answers := [false] } } rfl).trans ?_
    simp [State.emitAll_eq, handshake, busy]

/-- One byte of a target that has it to give (R103, R213). -/
theorem Target.readStep_reads (written : List U8) (b : U8) (bytes : List U8) (t t' : Target)
    (h : t.Reads (b :: bytes) t') :
    ∃ u, t.readStep written = (b, u) ∧ u.Reads bytes t' := by
  rcases h with ⟨hf, ha, ht⟩ | ⟨script, hf, ha, ht⟩
  · have hc : t.cueRead written = t := by simp [Target.cueRead, hf]
    have htake := Target.take_settled (msbFirst b) (bytes.flatMap msbFirst ++ t'.answers) t (by simpa using ha)
    rw [show (msbFirst b).length = 8 from rfl] at htake
    refine ⟨{ t with answers := bytes.flatMap msbFirst ++ t'.answers }, ?_, .inl ⟨hf, rfl, ht⟩⟩
    simp only [Target.readStep, hc, htake, shiftInAll_msbFirst]
  · have hc : t.cueRead written = { t with fixture := .adapter (bytes ++ script), answers := msbFirst b } := by
      simp [Target.cueRead, hf, Target.settle, wireBits_eq]
    have htake := Target.take_settled (msbFirst b) [] (t.cueRead written) (by rw [hc]; simp)
    rw [show (msbFirst b).length = 8 from rfl] at htake
    refine ⟨{ t with fixture := .adapter (bytes ++ script), answers := [] }, ?_, .inr ⟨script, rfl, rfl, ht⟩⟩
    simp only [Target.readStep, htake, shiftInAll_msbFirst]
    rw [hc]

/-- The bytes of a target that has them to give, one after the other (R160, R213). -/
theorem Target.readSteps_reads (written : List U8) (bytes : List U8) (t t' : Target) (h : t.Reads bytes t') :
    Target.readSteps written bytes.length t = (bytes, t') := by
  induction bytes generalizing t with
  | nil =>
    rcases h with ⟨-, ha, ht⟩ | ⟨script, hf, ha, ht⟩
    · obtain ⟨_, _, _⟩ := t; obtain ⟨_, _, _⟩ := t'; simp_all [Target.readSteps]
    · obtain ⟨_, _, _⟩ := t; simp_all [Target.readSteps]
  | cons b bytes ih =>
    obtain ⟨u, hu, hr⟩ := Target.readStep_reads written b bytes t t' h
    simp [Target.readSteps, hu, ih u hr]

/-! ### Calls -/

/-- A host call on an idle engine. -/
theorem hostCall_idle (body : State → State) (s : State) (h : s.Idle) : hostCall body s = .next (body s) := by
  simp [hostCall, show s.inFlight = none from h]

/-- A host call while another is in flight is refused (R209, R214). -/
theorem hostCall_busy (body : State → State) (s : State) (h : ¬ s.Idle) : hostCall body s = .next s.refuse := by
  unfold hostCall
  cases hk : s.inFlight with
  | none => exact absurd hk h
  | some k => rfl

/-- A host call answers a next state, which is one of two. -/
theorem hostCall_cases (body : State → State) (s : State) :
    s.Idle ∧ hostCall body s = .next (body s) ∨ ¬ s.Idle ∧ hostCall body s = .next s.refuse := by
  by_cases h : s.Idle
  · exact .inl ⟨h, hostCall_idle body s h⟩
  · exact .inr ⟨h, hostCall_busy body s h⟩

/-- The checks of a call that needs a session (R202, R203). -/
theorem sessionCheck_cases (s : State) :
    (s.active = false ∧ sessionCheck s = some errInactive) ∨
      (s.active = true ∧ s.inSession = false ∧ sessionCheck s = some errNotInSession) ∨
      (s.active = true ∧ s.inSession = true ∧ sessionCheck s = none) := by
  unfold sessionCheck
  cases s.active <;> cases s.inSession <;> simp

/-- The check of a call that needs the engine active (R202). -/
theorem activeCheck_cases (s : State) :
    (s.active = false ∧ activeCheck s = some errInactive) ∨ (s.active = true ∧ activeCheck s = none) := by
  unfold activeCheck
  cases s.active <;> simp

/-- A rejected transaction touches nothing but the flag and the result (R160, R201, R204). -/
theorem transact_inactive (frame : List U8) (n : Nat) (fin : Finish) (r : Result) (s : State) (h : s.active = false) :
    transact frame n fin r s = s.reject errInactive r := by
  simp [transact, sessionCheck, h]

theorem transact_outOfSession (frame : List U8) (n : Nat) (fin : Finish) (r : Result) (s : State) (ha : s.active = true)
    (hs : s.inSession = false) : transact frame n fin r s = s.reject errNotInSession r := by
  simp [transact, sessionCheck, ha, hs]

/-- An accepted transaction (R160): the flag is cleared, the frame is written, and the wait begins. -/
theorem transact_accepted (frame : List U8) (n : Nat) (fin : Finish) (r : Result) (s : State) (ha : s.active = true)
    (hs : s.inSession = true) :
    transact frame n fin r s = (State.writeFrame frame (clearError s)).await (.transaction n fin) := by
  simp [transact, sessionCheck, ha, hs]

/-- A transaction is rejected with error 1 or 2, or accepted (R160, R203). -/
theorem transact_cases (frame : List U8) (n : Nat) (fin : Finish) (r : Result) (s : State) :
    (s.active = false ∧ transact frame n fin r s = s.reject errInactive r) ∨
      (s.active = true ∧ s.inSession = false ∧ transact frame n fin r s = s.reject errNotInSession r) ∨
      (s.active = true ∧ s.inSession = true ∧
        transact frame n fin r s = (State.writeFrame frame (clearError s)).await (.transaction n fin)) := by
  rcases sessionCheck_cases s with ⟨ha, h⟩ | ⟨ha, hs, h⟩ | ⟨ha, hs, h⟩ <;> simp [transact, h, ha] <;> simp [hs]

/-- A transaction with a target that serves it (R160): its whole trace, and the fields it writes. -/
theorem transact_serves (b : U8) (frame : List U8) (n : Nat) (fin : Finish) (r : Result) (s : State) (k : Nat)
    (bytes : List U8) (t : Target) (ha : s.active = true) (hs : s.inSession = true) (hl : bytes.length = n)
    (ht : s.target.Serves k bytes t) :
    transact (b :: frame) n fin r s =
      ({ s.after (transaction s.direction (b :: frame) k bytes) with
          errorFlag := 0#8, direction := .drive, written := s.written ++ (b :: frame), target := t }).concluded bytes fin := by
  obtain ⟨u, hu, he⟩ :=
    State.await_serves (State.writeFrame (b :: frame) (clearError s)) (.transaction n fin) k bytes t
      (by simpa [State.writeFrame_eq] using ht)
  rw [transact_accepted _ _ _ _ s ha hs, he, State.afterReady_transaction _ _ _ rfl]
  have := Target.readSteps_reads (s.written ++ b :: frame) bytes u t hu
  simp only [State.writeFrame_eq]
  simp only [State.emitAll_eq, clearError, ← hl, this, errNone]
  simp [State.after, pinsAfter, transaction, switch, handshake, SMP]

/-- A call of a primitive on an inactive engine is rejected with error 1 (R202). -/
theorem primitiveCall_inactive (clears : Bool) (r : Result) (body : State → State) (s : State) (h : s.active = false) :
    primitiveCall clears r body s = s.reject errInactive r := by
  simp [primitiveCall, activeCheck, h]

/-- A call of a primitive on an active engine runs its body (R101, R103, R104). -/
theorem primitiveCall_active (clears : Bool) (r : Result) (body : State → State) (s : State) (h : s.active = true) :
    primitiveCall clears r body s = body (clearErrorIf clears s) := by
  simp [primitiveCall, activeCheck, h]

/-- A call of `writeByte` is rejected with error 1 or 2, or runs its body (R102, R203). -/
theorem sessionPrimitiveCall_cases (clears : Bool) (r : Result) (body : State → State) (s : State) :
    (s.active = false ∧ sessionPrimitiveCall clears r body s = s.reject errInactive r) ∨
      (s.active = true ∧ s.inSession = false ∧ sessionPrimitiveCall clears r body s = s.reject errNotInSession r) ∨
      (s.active = true ∧ s.inSession = true ∧ sessionPrimitiveCall clears r body s = body (clearErrorIf clears s)) := by
  rcases sessionCheck_cases s with ⟨ha, h⟩ | ⟨ha, hs, h⟩ | ⟨ha, hs, h⟩ <;> simp [sessionPrimitiveCall, h, ha] <;> simp [hs]

/-- What clearing the flag under `PRIM_CLEARS_ERROR` does (R135). -/
theorem clearErrorIf_eq (clears : Bool) (s : State) :
    clearErrorIf clears s = { s with errorFlag := if clears then 0#8 else s.errorFlag } := by
  unfold clearErrorIf; split <;> rfl

/-- An accepted transaction (R160), whatever the target answers: it returns, having read `n` bytes after `j` busy samples, or is in
flight after `j` busy samples. -/
theorem transact_accepted_cases (b : U8) (frame : List U8) (n : Nat) (fin : Finish) (r : Result) (s : State)
    (ha : s.active = true) (hs : s.inSession = true) :
    ∃ j,
      (∃ bytes t, bytes.length = n ∧
        transact (b :: frame) n fin r s =
          ({ s.after (transaction s.direction (b :: frame) j bytes) with
              errorFlag := 0#8, direction := .drive, written := s.written ++ (b :: frame), target := t }).concluded bytes fin) ∨
      ∃ t,
        transact (b :: frame) n fin r s =
          { s.after (switch s.direction .drive ++ (b :: frame).flatMap WB ++ SMP ++ .hold .settle :: busy j) with
            errorFlag := 0#8, direction := .sample, written := s.written ++ (b :: frame), target := t
            inFlight := some (.transaction n fin) } := by
  rw [transact_accepted _ _ _ _ s ha hs]
  obtain ⟨j, t, -, h | h⟩ := State.await_cases (State.writeFrame (b :: frame) (clearError s)) (.transaction n fin)
  · refine ⟨j, .inl ⟨(Target.readSteps (s.written ++ b :: frame) n t).1, (Target.readSteps (s.written ++ b :: frame) n t).2,
      Target.readSteps_length _ _ _, ?_⟩⟩
    rw [h, State.afterReady_transaction _ _ _ rfl]
    simp only [State.writeFrame_eq]
    simp only [State.emitAll_eq, clearError, errNone]
    simp [State.after, pinsAfter, transaction, switch, handshake, SMP]
  · refine ⟨j, .inr ⟨t, ?_⟩⟩
    rw [h]
    simp only [State.writeFrame_eq]
    simp only [State.emitAll_eq, clearError, errNone]
    simp [State.after, pinsAfter, switch, SMP]

end Sys2Proof.Machine
end

