-- ==== Sys2Proof/Laws/Exec.lean ====
section
/-! SUPPORT. What a host call can do, said once: `Effect s i t` lists every next state `t` of the call `i` in `s`, and `exec_effect`
says that there is no other. Frames and invariants are case splits over it. -/

namespace Sys2Proof.Machine

open Sys2Proof.Trace

/-- The transaction an operation is (R72, R160): its frame, the bytes it reads, how it ends and its rejection result. -/
def transactionOf : Instr → Option (List U8 × Nat × Finish × Result)
  | .exit => some ([0x48#8], 1, .leaveSession, .byte 0)
  | .readConfig => some ([0x20#8], 1, .lastByte, .byte 0)
  | .writeConfig c => some ([0x18#8, c], 1, .lastByte, .byte 0)
  | .exec1 a => some ([0x51#8, a], 1, .lastByte, .byte 0)
  | .exec2 a b => some ([0x52#8, a, b], 1, .lastByte, .byte 0)
  | .exec3 a b c => some ([0x53#8, a, b, c], 1, .lastByte, .byte 0)
  | .execImm16 a c => some ([0x53#8, a, hiByte c, loByte c], 1, .lastByte, .byte 0)
  | .getChipId => some ([0x68#8], 2, .word16, .word 0)
  | .getPC => some ([0x28#8], 2, .word16, .word 0)
  | .getStatus => some ([0x30#8], 1, .lastByte, .byte 0)
  | .step => some ([0x58#8], 1, .lastByte, .byte 0)
  | .massErase => some (Config.massEraseFrame.bytes, Config.massEraseReads, .lastByte, .byte 0)
  | .exec ocs => (execFrame ocs).map fun f => (f, 1, .lastByte, .byte 0)
  | .setDirection _ | .writeByte _ | .readByte | .awaitReadable | .activate _ | .enter | .getError => none

/-- An operation that is a transaction runs it (R160). -/
theorem exec_transaction (i : Instr) (frame : List U8) (n : Nat) (fin : Finish) (r : Result) (s : State)
    (h : transactionOf i = some (frame, n, fin, r)) : exec i s = hostCall (transact frame n fin r) s := by
  cases i with
  | exec ocs =>
    unfold transactionOf at h
    cases hf : execFrame ocs with
    | none => simp [hf] at h
    | some f =>
      simp only [hf, Option.map_some, Option.some.injEq, Prod.mk.injEq] at h
      obtain ⟨rfl, rfl, rfl, rfl⟩ := h
      simp only [exec, execExec, hostCall, execCall, hf]
  | setDirection | writeByte | readByte | awaitReadable | activate | enter | getError => simp [transactionOf] at h
  | _ =>
    simp only [transactionOf, Option.some.injEq, Prod.mk.injEq] at h
    obtain ⟨rfl, rfl, rfl, rfl⟩ := h
    rfl

/-- A transaction's frame is what the encoder gives for it, never empty, and it reads at least one byte (R72). -/
theorem transactionOf_frame (i : Instr) (frame : List U8) (n : Nat) (fin : Finish) (r : Result)
    (h : transactionOf i = some (frame, n, fin, r)) : encode i = frame ∧ frame ≠ [] ∧ 1 ≤ n := by
  cases i with
  | exec ocs =>
    match ocs, h with
    | [_], h | [_, _], h | [_, _, _], h =>
      simp only [transactionOf, execFrame, Option.map_some, Option.some.injEq, Prod.mk.injEq] at h
      obtain ⟨rfl, rfl, rfl, rfl⟩ := h
      exact ⟨rfl, by simp, Nat.le_refl 1⟩
  | setDirection | writeByte | readByte | awaitReadable | activate | enter | getError => simp [transactionOf] at h
  | massErase =>
    simp only [transactionOf, Option.some.injEq, Prod.mk.injEq] at h
    obtain ⟨rfl, rfl, rfl, rfl⟩ := h
    exact ⟨rfl, by simp [NonemptyBytes.bytes], Config.massEraseReads.pos⟩
  | _ =>
    simp only [transactionOf, Option.some.injEq, Prod.mk.injEq] at h
    obtain ⟨rfl, rfl, rfl, rfl⟩ := h
    exact ⟨rfl, by simp, by decide⟩

/-- Every next state of a host call. -/
inductive Effect (s : State) : Instr → State → Prop where
  /-- R209: refused, for being outside the contract. -/
  | refused (i : Instr)
      (why : ¬ s.Idle ∨ (i = .enter ∧ s.active = true ∧ s.inSession = true) ∨ ∃ ocs, i = .exec ocs ∧ execFrame ocs = none) :
      Effect s i s.refuse
  /-- R201: rejected with error 1 on an inactive engine. -/
  | inactive (i : Instr) (r : Result) (idle : s.Idle) (off : s.active = false)
      (checks : (∀ on, i ≠ .activate on) ∧ i ≠ .getError) : Effect s i (s.reject errInactive r)
  /-- R201: rejected with error 2 out of session. -/
  | outOfSession (i : Instr) (r : Result) (idle : s.Idle) (on : s.active = true) (out : s.inSession = false)
      (needs : (transactionOf i).isSome = true ∨ ∃ v, i = .writeByte v) :
      Effect s i (s.reject errNotInSession r)
  /-- R101. -/
  | setDirection (d : Direction) (f : U8) (idle : s.Idle) (on : s.active = true) (hf : f = 0#8 ∨ f = s.errorFlag) :
      Effect s (.setDirection d) { s.after (switch s.direction d) with direction := d, errorFlag := f, result := .nothing }
  /-- R102. -/
  | writeByte (v : U8) (f : U8) (idle : s.Idle) (on : s.active = true) (ses : s.inSession = true)
      (hf : f = 0#8 ∨ f = s.errorFlag) :
      Effect s (.writeByte v)
        { s.after (switch s.direction .drive ++ WB v) with
          direction := .drive, errorFlag := f, result := .nothing, written := s.written ++ [v] }
  /-- R103. -/
  | readByte (f : U8) (v : U8) (t : Target) (idle : s.Idle) (on : s.active = true)
      (hf : f = 0#8 ∨ f = s.errorFlag) :
      Effect s .readByte
        { s.after (switch s.direction .sample ++ RB v) with
          direction := .sample, errorFlag := f, result := .byte v, target := t }
  /-- R104, the target ready after `j` busy samples. -/
  | awaited (f : U8) (j : Nat) (t : Target) (idle : s.Idle) (on : s.active = true)
      (hf : f = 0#8 ∨ f = s.errorFlag) :
      Effect s .awaitReadable
        { s.after (switch s.direction .sample ++ handshake j) with
          direction := .sample, errorFlag := f, result := .nothing, target := t }
  /-- R104, R206, in flight after `j` busy samples. -/
  | awaiting (f : U8) (j : Nat) (t : Target) (idle : s.Idle) (on : s.active = true)
      (hf : f = 0#8 ∨ f = s.errorFlag) :
      Effect s .awaitReadable
        { s.after (switch s.direction .sample ++ .hold .settle :: busy j) with
          direction := .sample, errorFlag := f, target := t, inFlight := some .handshake }
  /-- R131, the no-op. -/
  | activated (idle : s.Idle) :
      Effect s (.activate s.active) { s with errorFlag := 0#8, result := .nothing }
  /-- R131, to active. -/
  | driven (idle : s.Idle) (off : s.active = false) :
      Effect s (.activate true)
        { s.after driveLines with
          active := true, inSession := false, direction := .drive, errorFlag := 0#8, result := .nothing }
  /-- R131, to inactive. -/
  | released (idle : s.Idle) (on : s.active = true) :
      Effect s (.activate false)
        { s.after releaseLines with
          active := false, inSession := false, direction := .sample, errorFlag := 0#8, result := .nothing }
  /-- R132. -/
  | entered (idle : s.Idle) (on : s.active = true) (out : s.inSession = false) :
      Effect s .enter { s.after entry with inSession := true, errorFlag := 0#8, result := .byte 0 }
  /-- R134. -/
  | gotError (idle : s.Idle) : Effect s .getError { s with result := .byte s.errorFlag }
  /-- R160, a transaction that returned after `j` busy samples. -/
  | transacted (i : Instr) (frame : List U8) (n : Nat) (fin : Finish) (r : Result) (j : Nat) (bytes : List U8)
      (t : Target) (is : transactionOf i = some (frame, n, fin, r)) (idle : s.Idle) (on : s.active = true)
      (ses : s.inSession = true) (len : bytes.length = n) :
      Effect s i
        (({ s.after (transaction s.direction frame j bytes) with
            errorFlag := 0#8, direction := .drive, written := s.written ++ frame, target := t }).concluded bytes fin)
  /-- R160, R206, a transaction in flight after `j` busy samples. -/
  | transacting (i : Instr) (frame : List U8) (n : Nat) (fin : Finish) (r : Result) (j : Nat) (t : Target)
      (is : transactionOf i = some (frame, n, fin, r)) (idle : s.Idle) (on : s.active = true) (ses : s.inSession = true) :
      Effect s i
        { s.after (switch s.direction .drive ++ frame.flatMap WB ++ SMP ++ .hold .settle :: busy j) with
          errorFlag := 0#8, direction := .sample, written := s.written ++ frame, target := t
          inFlight := some (.transaction n fin) }

theorem State.after_eq (s : State) (es : List Event) : s.emitAll es = s.after es := State.emitAll_eq s es

theorem primFlag_cases (clears : Bool) (s : State) :
    (if clears then 0#8 else s.errorFlag) = 0#8 ∨ (if clears then 0#8 else s.errorFlag) = s.errorFlag := by
  cases clears <;> simp

/-- A transaction's next states. -/
theorem transaction_effect (i : Instr) (frame : List U8) (n : Nat) (fin : Finish) (r : Result) (s : State)
    (h : transactionOf i = some (frame, n, fin, r)) (idle : s.Idle) : Effect s i (transact frame n fin r s) := by
  obtain ⟨-, hne, -⟩ := transactionOf_frame i frame n fin r h
  obtain ⟨b, frame, rfl⟩ := List.exists_cons_of_ne_nil hne
  rcases transact_cases (b :: frame) n fin r s with ⟨ha, he⟩ | ⟨ha, hs, he⟩ | ⟨ha, hs, -⟩
  · rw [he]; exact .inactive i r idle ha ⟨by rintro on rfl; simp [transactionOf] at h, by rintro rfl; simp [transactionOf] at h⟩
  · rw [he]; exact .outOfSession i r idle ha hs (.inl (by simp [h]))
  · obtain ⟨j, ⟨bytes, t, hl, he⟩ | ⟨t, he⟩⟩ := transact_accepted_cases b frame n fin r s ha hs
    · rw [he]; exact .transacted i _ n fin r j bytes t h idle ha hs hl
    · rw [he]; exact .transacting i _ n fin r j t h idle ha hs

/-- What a host call can do. -/
theorem exec_effect (i : Instr) (s : State) : ∃ t, exec i s = .next t ∧ Effect s i t := by
  by_cases idle : s.Idle
  case neg => exact ⟨s.refuse, by cases i <;> exact hostCall_busy _ s idle, .refused i (.inl idle)⟩
  case pos =>
    have hi : s.inFlight = none := idle
    cases hx : transactionOf i with
    | some x =>
      obtain ⟨frame, n, fin, r⟩ := x
      exact ⟨_, (exec_transaction i frame n fin r s hx).trans (hostCall_idle _ s idle), transaction_effect i _ _ _ _ s hx idle⟩
    | none =>
      cases i with
      | setDirection d =>
        refine ⟨_, hostCall_idle _ s idle, ?_⟩
        cases ha : s.active with
        | false => rw [setDirectionCall, primitiveCall_inactive _ _ _ _ ha]; exact .inactive _ _ idle ha ⟨by simp, by simp⟩
        | true =>
          rw [setDirectionCall, primitiveCall_active _ _ _ _ ha, clearErrorIf_eq]
          convert Effect.setDirection d _ idle ha (primFlag_cases Config.primClearsError s) using 1
          simp [State.switchDirection_eq, State.emitAll_eq, State.done, State.after, pinsAfter, hi]
      | writeByte v =>
        refine ⟨_, hostCall_idle _ s idle, ?_⟩
        rcases sessionPrimitiveCall_cases Config.primClearsError .nothing (fun s => (s.writeBits v).done .nothing) s with
          ⟨ha, h⟩ | ⟨ha, hs, h⟩ | ⟨ha, hs, h⟩
        · rw [writeByteCall, h]; exact .inactive _ _ idle ha ⟨by simp, by simp⟩
        · rw [writeByteCall, h]; exact .outOfSession _ _ idle ha hs (.inr ⟨v, rfl⟩)
        · rw [writeByteCall, h, clearErrorIf_eq]
          convert Effect.writeByte v _ idle ha hs (primFlag_cases Config.primClearsError s) using 1
          simp [State.writeBits_eq, State.emitAll_eq, State.done, State.after, pinsAfter, hi]
      | readByte =>
        refine ⟨_, hostCall_idle _ s idle, ?_⟩
        cases ha : s.active with
        | false => rw [readByteCall, primitiveCall_inactive _ _ _ _ ha]; exact .inactive _ _ idle ha ⟨by simp, by simp⟩
        | true =>
          rw [readByteCall, primitiveCall_active _ _ _ _ ha, clearErrorIf_eq]
          convert Effect.readByte _ (s.target.readStep s.written).1 (s.target.readStep s.written).2 idle ha
            (primFlag_cases Config.primClearsError s) using 1
          simp [State.readBits_eq, State.emitAll_eq, State.done, State.after, pinsAfter, hi]
      | awaitReadable =>
        refine ⟨_, hostCall_idle _ s idle, ?_⟩
        cases ha : s.active with
        | false => rw [awaitReadableCall, primitiveCall_inactive _ _ _ _ ha]; exact .inactive _ _ idle ha ⟨by simp, by simp⟩
        | true =>
          rw [awaitReadableCall, primitiveCall_active _ _ _ _ ha, clearErrorIf_eq]
          obtain ⟨j, t, -, h | h⟩ :=
            State.await_cases { s with errorFlag := if Config.primClearsError then 0#8 else s.errorFlag } .handshake
          · rw [h, State.afterReady_handshake]
            convert Effect.awaited _ j t idle ha (primFlag_cases Config.primClearsError s) using 1
            simp [State.emitAll_eq, State.done, State.after, pinsAfter, hi]
          · rw [h]
            convert Effect.awaiting _ j t idle ha (primFlag_cases Config.primClearsError s) using 1
            simp [State.emitAll_eq, State.after, pinsAfter]
      | activate on =>
        refine ⟨_, hostCall_idle _ s idle, ?_⟩
        by_cases h : on = s.active
        · subst h
          convert Effect.activated idle using 1
          simp [activateCall, State.done, clearError, errNone, hi]
        · cases on with
          | true =>
            have ha : s.active = false := by simpa using h
            convert Effect.driven idle ha using 1
            simp [activateCall, ha, State.driveLines, State.pinMode, State.pinSet, State.emit, State.done, clearError, errNone,
              State.after, pinsAfter, driveLines, hi]
          | false =>
            have ha : s.active = true := by simpa using h
            convert Effect.released idle ha using 1
            simp [activateCall, ha, State.releaseLines, State.pinMode, State.emit, State.done, clearError, errNone,
              State.after, pinsAfter, releaseLines, hi]
      | enter =>
        refine ⟨_, hostCall_idle _ s idle, ?_⟩
        rcases activeCheck_cases s with ⟨ha, h⟩ | ⟨ha, h⟩
        · simp only [enterCall, h]; exact .inactive _ _ idle ha ⟨by simp, by simp⟩
        · cases hs : s.inSession with
          | true => simp only [enterCall, h, hs, if_true]; exact .refused _ (.inr (.inl ⟨rfl, ha, hs⟩))
          | false =>
            convert Effect.entered idle ha hs using 1
            simp [enterCall, h, hs, State.entrySequence, State.pulses, State.pulse, State.hold, State.pinSet, State.emit,
              State.done, clearError, errNone, State.after, pinsAfter, entry, P, hi]
      | getError =>
        refine ⟨_, hostCall_idle _ s idle, ?_⟩
        convert Effect.gotError idle using 1
        simp [getErrorCall, State.done, hi]
      | exec ocs =>
        have hf : execFrame ocs = none := by simpa [transactionOf] using hx
        refine ⟨_, hostCall_idle _ s idle, ?_⟩
        simp only [execCall, hf]; exact .refused _ (.inr (.inr ⟨ocs, rfl, hf⟩))
      | _ => simp [transactionOf] at hx

/-- The next state of a host call is one of its effects. -/
theorem effect_of_exec {i : Instr} {s t : State} (h : exec i s = .next t) : Effect s i t := by
  obtain ⟨u, hu, he⟩ := exec_effect i s
  rw [h] at hu
  cases hu
  exact he

/-- The steps of the engine (R8): the wait goes on, nothing is called, or the next call runs. -/
theorem step_cases {s t : State} (h : step s = .next t) :
    (∃ k, s.inFlight = some k ∧ t = s.resume k) ∨ (s.Idle ∧ s.calls = [] ∧ t = s) ∨
      ∃ i rest, s.Idle ∧ s.calls = i :: rest ∧ exec i { s with calls := rest } = .next t := by
  unfold step at h
  cases hk : s.inFlight with
  | some k =>
    simp only [hk] at h
    injection h with h
    exact .inl ⟨k, rfl, h.symm⟩
  | none =>
    cases hc : s.calls with
    | nil =>
      simp only [hk, State.takeCall, hc] at h
      injection h with h
      exact .inr (.inl ⟨hk, rfl, h.symm⟩)
    | cons i rest =>
      simp only [hk, State.takeCall, hc] at h
      exact .inr (.inr ⟨i, rest, hk, rfl, h⟩)

/-- One more turn of a wait (R104, R206): busy, and still in flight, or ready. -/
theorem State.resume_cases (s : State) (k : InFlight) :
    ∃ t, t.fixture = s.target.fixture ∧
      (s.resume k = { s.after (.pinSample .ddi true :: P8) with target := t, inFlight := some k } ∨
        s.resume k = State.afterReady { s.after [.pinSample .ddi false, .hold .settle] with target := t } k) := by
  have hf : s.target.cuePoll.fixture = s.target.fixture := by unfold Target.cuePoll; split <;> rfl
  rw [State.resume_eq]
  rcases State.poll_cases k 1 { s with target := s.target.cuePoll } with ⟨j, t, hj, ht, h⟩ | ⟨t, ht, h⟩
  · obtain rfl : j = 0 := by omega
    exact ⟨t, ht.trans hf, .inr (by rw [h]; simp [State.emitAll_eq, State.after, pinsAfter, busy])⟩
  · exact ⟨t, ht.trans hf, .inl (by rw [h]; simp [State.emitAll_eq, State.after, pinsAfter, busy])⟩

/-- The three outcomes of one more turn of a wait (R104, R133, R160): still in flight, a direct call returned, or a transaction
returned with the bytes it read. -/
theorem State.resume_outcomes (s : State) (k : InFlight) (hd : s.direction = .sample) :
    ∃ t : Target,
      s.resume k = { s.after (.pinSample .ddi true :: P8) with target := t, inFlight := some k } ∨
        (k = .handshake ∧
          s.resume k =
            { s.after [.pinSample .ddi false, .hold .settle] with target := t, inFlight := none, result := .nothing }) ∨
        ∃ (n : Nat) (fin : Finish) (bytes : List U8), k = .transaction n fin ∧ bytes.length = n ∧
          s.resume k =
            ({ s.after ([Event.pinSample .ddi false, Event.hold .settle] ++ bytes.flatMap RB ++ DRV) with
                direction := .drive, target := t }).concluded bytes fin := by
  obtain ⟨t, -, h | h⟩ := State.resume_cases s k
  · exact ⟨t, .inl h⟩
  · cases k with
    | handshake => exact ⟨t, .inr (.inl ⟨rfl, h⟩)⟩
    | transaction n fin =>
      refine ⟨(Target.readSteps s.written n t).2, .inr (.inr ⟨n, fin, (Target.readSteps s.written n t).1, rfl,
        Target.readSteps_length _ _ _, ?_⟩)⟩
      rw [h, State.afterReady_transaction _ _ _ (by simpa [State.after] using hd)]
      simp [State.emitAll_eq, State.after, pinsAfter]

/-- No step ends in a fault or a refusal (R201, R207). -/
theorem step_next (s : State) : ∃ t, step s = .next t := by
  unfold step
  cases s.inFlight with
  | some k => exact ⟨_, rfl⟩
  | none =>
    cases s.takeCall with
    | none => exact ⟨_, rfl⟩
    | some x => exact (exec_effect x.1 x.2).imp fun t h => h.1

theorem core_run_zero (s : State) : Sys2Proof.core.run 0 s = Host.Outcome.next s := rfl

/-- A run of the engine begins with its first step. -/
theorem core_run_succ (n : Nat) (s t : State) (h : step s = .next t) :
    Sys2Proof.core.run (n + 1) s = Sys2Proof.core.run n t := by
  have h' : Sys2Proof.core.step s = Host.Outcome.next t := h
  have e : ∀ M : Host.Core, ∀ x y : M.State, M.step x = .next y → M.run (n + 1) x = M.run n y := fun M x y hxy => by
    simp only [Host.Core.run, hxy]
  exact e Sys2Proof.core s t h'

/-- Runs compose. -/
theorem core_run_add (m n : Nat) (s t : State) (h : Sys2Proof.core.run m s = Host.Outcome.next t) :
    Sys2Proof.core.run (m + n) s = Sys2Proof.core.run n t := by
  induction m generalizing s with
  | zero =>
    rw [core_run_zero] at h
    injection h with h
    rw [Nat.zero_add, h]
  | succ m ih =>
    obtain ⟨u, hu⟩ := step_next s
    rw [core_run_succ m s u hu] at h
    rw [Nat.succ_add, core_run_succ (m + n) s u hu]
    exact ih u h

theorem core_run_one (s t : State) (h : step s = .next t) : Sys2Proof.core.run 1 s = Host.Outcome.next t :=
  (core_run_succ 0 s t h).trans (core_run_zero t)

end Sys2Proof.Machine
end

