-- ==== Sys2Proof/Laws/Lines.lean ====
section
/-! SUPPORT. What the blocks of R14's notation do to the lines: each is a `Block` from one direction of the data line to another,
blocks compose, and every trace an operation emits while the engine is active is a composition of blocks. -/

namespace Sys2Proof.Machine

open Sys2Proof.Trace

/-! ### Fields -/

@[simp] theorem State.after_active (s : State) (es : List Event) : (s.after es).active = s.active := rfl
@[simp] theorem State.after_inSession (s : State) (es : List Event) : (s.after es).inSession = s.inSession := rfl
@[simp] theorem State.after_direction (s : State) (es : List Event) : (s.after es).direction = s.direction := rfl
@[simp] theorem State.after_errorFlag (s : State) (es : List Event) : (s.after es).errorFlag = s.errorFlag := rfl
@[simp] theorem State.after_refused (s : State) (es : List Event) : (s.after es).refused = s.refused := rfl
@[simp] theorem State.after_inFlight (s : State) (es : List Event) : (s.after es).inFlight = s.inFlight := rfl
@[simp] theorem State.after_result (s : State) (es : List Event) : (s.after es).result = s.result := rfl
@[simp] theorem State.after_written (s : State) (es : List Event) : (s.after es).written = s.written := rfl
@[simp] theorem State.after_target (s : State) (es : List Event) : (s.after es).target = s.target := rfl
@[simp] theorem State.after_calls (s : State) (es : List Event) : (s.after es).calls = s.calls := rfl
@[simp] theorem State.after_pins (s : State) (es : List Event) : (s.after es).pins = pinsAfter s.pins es := rfl
@[simp] theorem State.after_trace (s : State) (es : List Event) : (s.after es).trace = s.trace ++ es := rfl

@[simp] theorem State.concluded_active (s : State) (r : List U8) (fin : Finish) :
    (s.concluded r fin).active = s.active := by cases fin <;> rfl
@[simp] theorem State.concluded_direction (s : State) (r : List U8) (fin : Finish) :
    (s.concluded r fin).direction = s.direction := by cases fin <;> rfl
@[simp] theorem State.concluded_errorFlag (s : State) (r : List U8) (fin : Finish) :
    (s.concluded r fin).errorFlag = s.errorFlag := by cases fin <;> rfl
@[simp] theorem State.concluded_pins (s : State) (r : List U8) (fin : Finish) :
    (s.concluded r fin).pins = s.pins := by cases fin <;> rfl
@[simp] theorem State.concluded_refused (s : State) (r : List U8) (fin : Finish) :
    (s.concluded r fin).refused = s.refused := by cases fin <;> rfl
@[simp] theorem State.concluded_trace (s : State) (r : List U8) (fin : Finish) :
    (s.concluded r fin).trace = s.trace := by cases fin <;> rfl
@[simp] theorem State.concluded_written (s : State) (r : List U8) (fin : Finish) :
    (s.concluded r fin).written = s.written := by cases fin <;> rfl
@[simp] theorem State.concluded_target (s : State) (r : List U8) (fin : Finish) :
    (s.concluded r fin).target = s.target := by cases fin <;> rfl
@[simp] theorem State.concluded_calls (s : State) (r : List U8) (fin : Finish) :
    (s.concluded r fin).calls = s.calls := by cases fin <;> rfl
@[simp] theorem State.concluded_inFlight (s : State) (r : List U8) (fin : Finish) :
    (s.concluded r fin).inFlight = none := by cases fin <;> rfl
@[simp] theorem State.concluded_inSession (s : State) (r : List U8) (fin : Finish) :
    (s.concluded r fin).inSession = if fin = .leaveSession then false else s.inSession := by cases fin <;> rfl

/-! ### Blocks -/

theorem pinsAfter_append (ps : Pins) (es fs : List Event) : pinsAfter ps (es ++ fs) = pinsAfter (pinsAfter ps es) fs :=
  List.foldl_append

theorem disciplined_append (ps : Pins) (es fs : List Event) :
    disciplined ps (es ++ fs) = (disciplined ps es && disciplined (pinsAfter ps es) fs) := by
  induction es generalizing ps with
  | nil => rfl
  | cons e es ih => simp [disciplined, ih, Bool.and_assoc, pinsAfter]

theorem setsLevel_next (p : Line) (es fs : List Event)
    (h : (match es with | e :: _ => setsLevel p e | [] => false) = true) :
    (match es ++ fs with | e :: _ => setsLevel p e | [] => false) = true := by
  cases es with
  | nil => simp at h
  | cons e es => exact h

theorem outputsSet_append (es fs : List Event) (he : outputsSet es = true) (hf : outputsSet fs = true) :
    outputsSet (es ++ fs) = true := by
  induction es with
  | nil => exact hf
  | cons e es ih =>
    cases e with
    | pinMode p m =>
      cases m with
      | output =>
        simp only [outputsSet, Bool.and_eq_true, List.cons_append] at he ⊢
        exact ⟨setsLevel_next p es fs he.1, ih he.2⟩
      | input => exact ih he
    | pinSet | pinSample | hold => exact ih he

/-- The lines of an active engine (R28). -/
structure Pins.Up (ps : Pins) (d : Direction) : Prop where
  rst : ps.rst.mode = .output
  dc : ps.dc = { mode := .output, level := false }
  ddo : ps.ddo.mode = .output ↔ d = .drive
  ddi : ps.ddi.mode = .input

/-- Events that take an active engine's lines from direction `d` to `d'` (R28), keep RST, are allowed where they stand (R30, R106,
R240) and set every output they make (R26). -/
structure Block (d : Direction) (es : List Event) (d' : Direction) : Prop where
  up : ∀ ps : Pins, ps.Up d → (pinsAfter ps es).Up d' ∧ (pinsAfter ps es).rst = ps.rst ∧ disciplined ps es = true
  set : outputsSet es = true

theorem Block.nil (d : Direction) : Block d [] d := ⟨fun _ h => ⟨h, rfl, rfl⟩, rfl⟩

theorem Block.append {d d' d'' : Direction} {es fs : List Event} (h : Block d es d') (g : Block d' fs d'') :
    Block d (es ++ fs) d'' := by
  refine ⟨fun ps hp => ?_, outputsSet_append _ _ h.set g.set⟩
  obtain ⟨h1, h2, h3⟩ := h.up ps hp
  obtain ⟨g1, g2, g3⟩ := g.up _ h1
  exact ⟨by rw [pinsAfter_append]; exact g1, by rw [pinsAfter_append, g2, h2], by rw [disciplined_append, h3, g3]; rfl⟩

theorem Block.hold (d : Direction) (k : HoldKind) : Block d [.hold k] d := ⟨fun _ h => ⟨h, rfl, rfl⟩, rfl⟩

theorem Block.pulse (d : Direction) : Block d P d := by
  refine ⟨fun ps h => ?_, rfl⟩
  obtain ⟨⟨_, _⟩, ⟨_, _⟩, ⟨_, _⟩, ⟨_, _⟩⟩ := ps
  obtain ⟨h1, h2, h3, h4⟩ := h
  cases h2
  exact ⟨⟨h1, rfl, h3, h4⟩, rfl, rfl⟩

theorem Block.burst (d : Direction) : Block d P8 d :=
  ((((((((Block.pulse d).append (.pulse d)).append (.pulse d)).append (.pulse d)).append (.pulse d)).append
    (.pulse d)).append (.pulse d)).append (.pulse d))

theorem Block.writeBit (b : Bit) : Block .drive (W b) .drive := by
  refine ⟨fun ps h => ?_, rfl⟩
  obtain ⟨⟨_, _⟩, ⟨_, _⟩, ⟨_, _⟩, ⟨_, _⟩⟩ := ps
  obtain ⟨h1, h2, h3, h4⟩ := h
  cases h2
  obtain rfl := h3.mpr rfl
  exact ⟨⟨h1, rfl, h3, h4⟩, rfl, rfl⟩

theorem Block.readBit (b : Bit) : Block .sample (Rd b) .sample := by
  refine ⟨fun ps h => ?_, rfl⟩
  obtain ⟨⟨_, _⟩, ⟨_, _⟩, ⟨m, _⟩, ⟨_, _⟩⟩ := ps
  obtain ⟨h1, h2, h3, h4⟩ := h
  cases h2
  cases h4
  cases m with
  | output => simp at h3
  | input => exact ⟨⟨h1, rfl, h3, rfl⟩, rfl, rfl⟩

theorem Block.sampled (b : Bit) : Block .sample [.pinSample .ddi b] .sample := by
  refine ⟨fun ps h => ?_, rfl⟩
  obtain ⟨⟨_, _⟩, ⟨_, _⟩, ⟨m, _⟩, ⟨_, _⟩⟩ := ps
  obtain ⟨h1, h2, h3, h4⟩ := h
  cases h4
  cases m with
  | output => simp at h3
  | input => exact ⟨⟨h1, h2, h3, rfl⟩, rfl, rfl⟩

theorem Block.writeByte (v : U8) : Block .drive (WB v) .drive :=
  (((((((Block.writeBit _).append (.writeBit _)).append (.writeBit _)).append (.writeBit _)).append (.writeBit _)).append
    (.writeBit _)).append (.writeBit _)).append (.writeBit _)

theorem Block.readByte (v : U8) : Block .sample (RB v) .sample :=
  (((((((Block.readBit _).append (.readBit _)).append (.readBit _)).append (.readBit _)).append (.readBit _)).append
    (.readBit _)).append (.readBit _)).append (.readBit _)

theorem Block.switch (d d' : Direction) : Block d (Trace.switch d d') d' := by
  cases d <;> cases d'
  case drive.drive | sample.sample => exact .nil _
  all_goals
    refine ⟨fun ps h => ?_, rfl⟩
    obtain ⟨⟨_, _⟩, ⟨_, _⟩, ⟨_, _⟩, ⟨_, _⟩⟩ := ps
    obtain ⟨h1, h2, h3, h4⟩ := h
    cases h2
    cases h4
    exact ⟨⟨h1, rfl, by simp [pinsAfter, DRV, SMP, Pins.apply, Trace.switch], rfl⟩, rfl, rfl⟩

theorem Block.frame (frame : List U8) : Block .drive (frame.flatMap WB) .drive := by
  induction frame with
  | nil => exact .nil _
  | cons v frame ih => exact (Block.writeByte v).append ih

theorem Block.result (bytes : List U8) : Block .sample (bytes.flatMap RB) .sample := by
  induction bytes with
  | nil => exact .nil _
  | cons v bytes ih => exact (Block.readByte v).append ih

theorem Block.busy (k : Nat) : Block .sample (Trace.busy k) .sample := by
  induction k with
  | zero => exact .nil _
  | succ k ih => exact (Block.sampled true).append ((Block.burst _).append ih)

theorem Block.wait (k : Nat) : Block .sample (.hold .settle :: Trace.busy k) .sample := (Block.hold _ _).append (.busy k)

theorem Block.ready : Block .sample [.pinSample .ddi false, .hold .settle] .sample := (Block.sampled false).append (.hold _ _)

theorem Block.handshake (k : Nat) : Block .sample (Trace.handshake k) .sample := (Block.hold _ _).append ((Block.busy k).append .ready)

theorem Block.drv : Block .sample DRV .drive := .switch .sample .drive

theorem Block.smp : Block .drive SMP .sample := .switch .drive .sample

theorem Block.transaction (d : Direction) (frame : List U8) (k : Nat) (bytes : List U8) :
    Block d (Trace.transaction d frame k bytes) .drive :=
  (((((Block.switch d .drive).append (.frame frame)).append .smp).append (.handshake k)).append (.result bytes)).append .drv

theorem Block.transactionWait (d : Direction) (frame : List U8) (k : Nat) :
    Block d (Trace.switch d .drive ++ frame.flatMap WB ++ SMP ++ .hold .settle :: Trace.busy k) .sample :=
  (((Block.switch d .drive).append (.frame frame)).append .smp).append (.wait k)

theorem Block.busyTurn : Block .sample (.pinSample .ddi true :: P8) .sample := (Block.sampled true).append (.burst _)

theorem Block.transactionEnd (bytes : List U8) :
    Block .sample ([Event.pinSample .ddi false, Event.hold .settle] ++ bytes.flatMap RB ++ DRV) .drive :=
  (Block.ready.append (.result bytes)).append .drv

/-- The lines of a legal active engine. -/
theorem State.Legal.up {s : State} (h : s.Legal) (on : s.active = true) : s.pins.Up s.direction := by
  obtain ⟨h1, h2, h3, h4⟩ := h.driven on
  refine ⟨h1, ?_, h4, h.ddiInput⟩
  cases hp : s.pins.dc
  simp_all

/-- An active engine whose lines are up and whose fields agree is legal. -/
theorem State.legal_of_up {s : State} (on : s.active = true) (up : s.pins.Up s.direction)
    (flag : s.errorFlag = 0#8 ∨ s.errorFlag = 1#8 ∨ s.errorFlag = 2#8) (rst : s.inSession = true → s.pins.rst.level = true)
    (waiting : s.inFlight ≠ none → s.direction = .sample)
    (transacting : ∀ n fin, s.inFlight = some (.transaction n fin) → s.inSession = true ∧ s.errorFlag = 0#8 ∧ 1 ≤ n) :
    s.Legal :=
  ⟨flag, fun _ => on, up.ddi, rst, fun _ => ⟨up.rst, by rw [up.dc], by rw [up.dc], up.ddo⟩, fun h => by simp [on] at h,
    fun h => ⟨on, waiting h⟩, transacting⟩

/-- A block keeps a legal active engine legal, whatever fields change beside the lines, if they agree. -/
theorem State.Legal.of_block {s t : State} {d d' : Direction} {es : List Event} (h : s.Legal) (up : s.pins.Up d)
    (b : Block d es d') (pins : t.pins = pinsAfter s.pins es) (dir : t.direction = d') (on : t.active = true)
    (flag : t.errorFlag = 0#8 ∨ t.errorFlag = 1#8 ∨ t.errorFlag = 2#8) (ses : t.inSession = true → s.inSession = true)
    (waiting : t.inFlight ≠ none → t.direction = .sample)
    (transacting : ∀ n fin, t.inFlight = some (.transaction n fin) → t.inSession = true ∧ t.errorFlag = 0#8 ∧ 1 ≤ n) :
    t.Legal := by
  obtain ⟨h1, h2, -⟩ := b.up _ up
  rw [← pins] at h1 h2
  rw [← dir] at h1
  exact State.legal_of_up on h1 flag (fun hs => by rw [h2]; exact h.rstHigh (ses hs)) waiting transacting

end Sys2Proof.Machine
end

