-- ==== Sys2Proof/Laws/PerInstr.lean ====
section
/-! SUPPORT. One statement per instruction about its words on the wire (30_encoding.md rules R72, R73, R77, R80): what a reader of the
wire sees of an operation is an operation of the table, well formed, of the same frame of 1 to 4 bytes, and it reads as itself. -/

namespace Sys2Proof.Laws.Wire

/-- What a reader of the wire sees of an operation, if it sends a frame of the table. -/
def Statement (i : Instr) : Prop :=
  ∀ j, i.onWire = some j →
    j.onWire = some j ∧ j.wellFormed = true ∧ encode j = encode i ∧ 1 ≤ (encode i).length ∧ (encode i).length ≤ 4

/-- An operation without a frame of the table. -/
theorem of_none (i : Instr) (h : i.onWire = none) : Statement i := fun j hj => by simp [h] at hj

/-- An operation with a frame of the table. -/
theorem of_some (i j : Instr) (h : i.onWire = some j)
    (g : j.onWire = some j ∧ j.wellFormed = true ∧ encode j = encode i ∧ 1 ≤ (encode i).length ∧ (encode i).length ≤ 4) :
    Statement i := fun k hk => by
  rw [h] at hk
  injection hk with hk
  exact hk ▸ g

theorem setDirection (d : Direction) : Statement (.setDirection d) := of_none _ rfl

theorem writeByte (v : U8) : Statement (.writeByte v) := of_none _ rfl

theorem readByte : Statement .readByte := of_none _ rfl

theorem awaitReadable : Statement .awaitReadable := of_none _ rfl

theorem activate (on : Bool) : Statement (.activate on) := of_none _ rfl

theorem enter : Statement .enter := of_none _ rfl

theorem exit : Statement .exit := of_some _ _ rfl ⟨rfl, rfl, rfl, by decide, by decide⟩

theorem getError : Statement .getError := of_none _ rfl

theorem readConfig : Statement .readConfig := of_some _ _ rfl ⟨rfl, rfl, rfl, by decide, by decide⟩

theorem writeConfig (c : U8) : Statement (.writeConfig c) := of_some _ _ rfl ⟨rfl, rfl, rfl, Nat.le_add_left 1 1, Nat.le_add_left 2 2⟩

theorem exec1 (oc0 : U8) : Statement (.exec1 oc0) := of_some _ _ rfl ⟨rfl, rfl, rfl, Nat.le_add_left 1 1, Nat.le_add_left 2 2⟩

theorem exec2 (oc0 oc1 : U8) : Statement (.exec2 oc0 oc1) :=
  of_some _ _ rfl ⟨rfl, rfl, rfl, Nat.le_add_left 1 2, Nat.le_add_left 3 1⟩

theorem exec3 (oc0 oc1 oc2 : U8) : Statement (.exec3 oc0 oc1 oc2) :=
  of_some _ _ rfl ⟨rfl, rfl, rfl, Nat.le_add_left 1 3, Nat.le_refl 4⟩

theorem execImm16 (oc0 : U8) (c0 : U16) : Statement (.execImm16 oc0 c0) :=
  of_some _ _ rfl ⟨rfl, rfl, rfl, Nat.le_add_left 1 3, Nat.le_refl 4⟩

theorem getChipId : Statement .getChipId := of_some _ _ rfl ⟨rfl, rfl, rfl, by decide, by decide⟩

theorem getPC : Statement .getPC := of_some _ _ rfl ⟨rfl, rfl, rfl, by decide, by decide⟩

theorem getStatus : Statement .getStatus := of_some _ _ rfl ⟨rfl, rfl, rfl, by decide, by decide⟩

theorem step : Statement .step := of_some _ _ rfl ⟨rfl, rfl, rfl, by decide, by decide⟩

theorem massErase : Statement .massErase := of_none _ rfl

theorem exec (ocs : List U8) : Statement (.exec ocs) := by
  match ocs with
  | [] => exact of_none _ rfl
  | [_] => exact of_some _ _ rfl ⟨rfl, rfl, rfl, Nat.le_add_left 1 1, Nat.le_add_left 2 2⟩
  | [_, _] => exact of_some _ _ rfl ⟨rfl, rfl, rfl, Nat.le_add_left 1 2, Nat.le_add_left 3 1⟩
  | [_, _, _] => exact of_some _ _ rfl ⟨rfl, rfl, rfl, Nat.le_add_left 1 3, Nat.le_refl 4⟩
  | _ :: _ :: _ :: _ :: _ => exact of_none _ rfl

end Sys2Proof.Laws.Wire
end

