-- ==== Sys2Proof/Tests/Slice0.lean ====
section
/-! SUPPORT. The model's own tests: the well-formedness check, the words of 30_encoding.md rule R72 written out bit by bit, the worked
examples and vectors of 95_test_vectors.md (E, V, S, I, P), and for every statement with hypotheses a concrete state and operands
that meet them. Every expected value is the spec's. -/

namespace Sys2Proof.Tests

open Sys2Proof.Machine Sys2Proof.Trace Sys2Proof.Claims

/-! ### States -/

/-- **C** of 95_test_vectors.md: the engine after construction, its trace taken away, a target at the pins with these answers. -/
def c (answers : List Bit) : State :=
  { State.reset with trace := [], target := { fixture := .pins, answers := answers, draws := 0 } }

/-- **CS**: C followed by `enter()`. -/
def cs (answers : List Bit) : State :=
  { c answers with
    inSession := true
    pins :=
      { rst := { mode := .output, level := true }, dc := { mode := .output, level := false },
        ddo := { mode := .output, level := false }, ddi := { mode := .input, level := false } } }

/-- C or CS followed by `setDirection(SAMPLE)`. -/
def sampling (s : State) : State :=
  { s with direction := .sample, pins := { s.pins with ddo := { mode := .input, level := false } } }

/-- The inactive engine `⟨I, SAMPLE, 0⟩`. -/
def off : State :=
  { c [] with
    active := false
    direction := .sample
    pins :=
      { rst := { mode := .input, level := true }, dc := { mode := .input, level := false },
        ddo := { mode := .input, level := false }, ddi := { mode := .input, level := false } } }

/-- A state on a fixture of the verification boundary (R213, D27). -/
def onFixture (f : Fixture) (s : State) : State := { s with target := { fixture := f, answers := [], draws := 0 } }

/-- An operation in flight. -/
def waitingFor (k : InFlight) (answers : List Bit) : State := { sampling (cs answers) with inFlight := some k }

/-- The target at the pins after all its answers. -/
def spent : Target := { fixture := .pins, answers := [], draws := 0 }

/-- The answers of a transaction that reads `n` bytes of zeros after `k` busy samples. -/
def zeros (n k : Nat) : List Bit := List.replicate k true ++ false :: (List.replicate n (0#8 : U8)).flatMap msbFirst

/-- The next state of an outcome. -/
def nextOf : Host.Outcome State Fault Refusal → Option State
  | .next s => some s
  | .fault _ => none
  | .refused _ => none

/-- What a vector of 95_test_vectors.md tells of a call: its result, the number of its events, and the flag after it. -/
def summary (o : Host.Outcome State Fault Refusal) : Option (Result × Nat × U8) :=
  (nextOf o).map fun s => (s.result, s.trace.length, s.errorFlag)

/-- What P1 and P2 tell of the last call: result, events so far, wire bytes so far. -/
def wire (o : Host.Outcome State Fault Refusal) : Option (Result × Nat × List U8) :=
  (nextOf o).map fun s => (s.result, s.trace.length, s.written)

/-! ### Well-formedness: R79, R172 -/

/-- R172: no framing byte for no opcode byte. -/
theorem test_wf_exec_empty : Instr.wellFormed (.exec []) = false := by decide

/-- R172: no framing byte for four opcode bytes. -/
theorem test_wf_exec_four : Instr.wellFormed (.exec [1, 2, 3, 4]) = false := by decide

/-- R172: one to three opcode bytes are well formed; R79: every other argument value is. -/
theorem test_wf_accepts :
    Instr.wellFormed (.exec [1]) = true ∧ Instr.wellFormed (.exec [1, 2, 3]) = true ∧
      Instr.wellFormed (.execImm16 0xFF 0xFFFF) = true := by decide

/-! ### Decoding: R72, R76, R78, R81 -/

/-- `Resume/exit | 0x48`. -/
theorem test_decode_exit : decode [0b01001000#8] = .ok (.exit, []) := by decide

/-- `readConfig | [0x20]`, the next frame left over. -/
theorem test_decode_readConfig : decode [0b00100000#8, 0x48#8] = .ok (.readConfig, [0x48#8]) := by decide

/-- I3: `writeConfig(0x48)`; an operand equal to a framing byte is only an operand. -/
theorem test_decode_writeConfig : decode [0b00011000#8, 0b01001000#8] = .ok (.writeConfig 0x48, []) := by decide

/-- I4. -/
theorem test_decode_exec1 : decode [0b01010001#8, 0b11111111#8] = .ok (.exec1 0xFF, []) := by decide

/-- I5: `52 E5 81`. -/
theorem test_decode_exec2 : decode [0b01010010#8, 0b11100101#8, 0b10000001#8] = .ok (.exec2 0xE5 0x81, []) := by decide

/-- I6: `53 90 12 34`. -/
theorem test_decode_exec3 :
    decode [0b01010011#8, 0b10010000#8, 0b00010010#8, 0b00110100#8] = .ok (.exec3 0x90 0x12 0x34, []) := by decide

/-- I7, R77: `execImm16(0x90, 0x1234)` sends the frame of I6, high byte first. -/
theorem test_encode_execImm16 : encode (.execImm16 0x90 0x1234) = [0x53#8, 0x90#8, 0x12#8, 0x34#8] := by decide

/-- `getChipId | [0x68]`. -/
theorem test_decode_getChipId : decode [0b01101000#8] = .ok (.getChipId, []) := by decide

/-- `getPC | [0x28]`. -/
theorem test_decode_getPC : decode [0b00101000#8] = .ok (.getPC, []) := by decide

/-- `getStatus | [0x30]`. -/
theorem test_decode_getStatus : decode [0b00110000#8] = .ok (.getStatus, []) := by decide

/-- `step | [0x58]`. -/
theorem test_decode_step : decode [0b01011000#8] = .ok (.step, []) := by decide

/-- `massErase` under the frame of I16. -/
theorem test_decode_massErase : decodeWire [0x10#8] [0b00010000#8] = .ok (.massErase, []) := by decide

/-- R81: all eight bits are matched; `0x49` begins no frame. -/
theorem test_decode_reserved : decode [0b01001001#8] = .error (.notAFramingByte 0x49) := by decide

/-- R76: `0x53` is a 4-byte frame. -/
theorem test_decode_short : decode [0x53#8, 0x90#8, 0x12#8] = .error (.truncated 0x53) := by decide

/-- I18: `exec([0xA3])` is `exec1(0xA3)`: frame `51 A3`. -/
theorem test_encode_exec : encode (.exec [0xA3]) = [0x51#8, 0xA3#8] := by decide

/-- The opcode table's numbering: the first byte on the wire is bits 7 to 0. -/
theorem test_table_word : decodeTableWord 32 0x34129053 = some (.exec3 0x90 0x12 0x34) := by decide

/-! ### The Bit-Transfer Layer -/

/-- V2. -/
theorem test_setDirection_sample :
    (nextOf (exec (.setDirection .sample) (c []))).map (fun s => (s.trace, s.direction)) =
      some ([.pinMode .ddo .input], .sample) := by
  unfold exec execSetDirection
  cases Config.primClearsError <;> decide

/-- V23: with `PRIM_CLEARS_ERROR = false` a no-op `setDirection` leaves the flag 2; V22: with `true` it clears it. -/
theorem test_setDirection_flag :
    (setDirectionCall false .drive { c [] with errorFlag := 2 }).errorFlag = 2 ∧
      (setDirectionCall true .drive { c [] with errorFlag := 2 }).errorFlag = 0 := by decide

/-- V8: from SAMPLE, `writeByte(0x80)` emits `DRV WB(0x80)`, 43 events, and leaves DD_O at 0. -/
theorem test_writeByte_switches :
    (nextOf (exec (.writeByte 0x80) (sampling (cs [])))).map (fun s => (s.trace.take 9, s.trace.length, s.pins.ddo.level)) =
      some
        ([.pinMode .ddi .input, .pinMode .ddo .output, .pinSet .ddo false, .pinSet .ddo true, .pinSet .dc true, .hold .tick,
            .pinSet .dc false, .hold .tick, .pinSet .ddo false],
          43, false) := by
  unfold exec execWriteByte
  cases Config.primClearsError <;> decide +kernel

/-- V10: inactive, error 1 before error 2. -/
theorem test_writeByte_inactive : summary (exec (.writeByte 0x55) off) = some (.nothing, 0, 1) := by decide

/-- V13: samples `1,0,1,0,0,1,0,1` spell 0xA5, most significant first. -/
theorem test_readByte_spells :
    (nextOf (exec .readByte (sampling (cs [true, false, true, false, false, true, false, true])))).map
        (fun s => (s.result, s.trace.length)) =
      some (.byte 0xA5, 40) := by
  unfold exec execReadByte readByteCall
  cases Config.primClearsError <;> decide +kernel

/-- V20, V21: `PRIM_CLEARS_ERROR` decides whether an accepted `readByte` clears the flag. -/
theorem test_readByte_flag :
    (readByteCall true { c (msbFirst 0xFF) with errorFlag := 2 }).errorFlag = 0 ∧
      (readByteCall false { c (msbFirst 0xFF) with errorFlag := 2 }).errorFlag = 2 := by decide +kernel

/-- V17: samples `1, 1, 0`, 70 events. -/
theorem test_awaitReadable_busy :
    (nextOf (exec .awaitReadable (c [true, true, false]))).map (fun s => (s.trace.length, s.inFlight)) = some (70, none) := by
  unfold exec execAwaitReadable awaitReadableCall
  cases Config.primClearsError <;> decide +kernel

/-- V18: while every sample is 1 the call does not return. -/
theorem test_awaitReadable_waits :
    (nextOf (exec .awaitReadable (c [true, true]))).map (fun s => (s.trace.length, s.inFlight)) =
      some (68, some .handshake) := by
  unfold exec execAwaitReadable awaitReadableCall
  cases Config.primClearsError <;> decide +kernel

/-! ### The Protocol-Session Layer -/

/-- S1: seven events, `⟨O, DRIVE, 0⟩`. -/
theorem test_activate_on :
    (nextOf (exec (.activate true) { off with errorFlag := 1 })).map (fun s => (s.trace.length, s.mode, s.direction, s.errorFlag)) =
      some (7, some .outOfSession, .drive, 0) := by decide

/-- S5: in session, four events, the session abandoned. -/
theorem test_activate_off :
    (nextOf (exec (.activate false) (cs []))).map (fun s => (s.trace, s.mode, s.direction)) =
      some ([.pinMode .rst .input, .pinMode .dc .input, .pinMode .ddo .input, .pinMode .ddi .input], some .inactive, .sample) := by
  decide

/-- S7: 12 events, RST at 1. -/
theorem test_enter :
    (nextOf (exec .enter (c []))).map (fun s => (s.result, s.trace.length, s.mode, s.pins.rst.level)) =
      some (.byte 0, 12, some .inSession, true) := by decide

/-- S9: refused in session, nothing else. -/
theorem test_enter_refused : nextOf (exec .enter (cs [])) = some { cs [] with refused := true } := by decide

/-- S11: from SAMPLE, 90 events, the status 0xFF dropped, out of session. -/
theorem test_exit :
    (nextOf (exec .exit (sampling (cs (false :: msbFirst 0xFF))))).map (fun s => (s.result, s.trace.length, s.mode)) =
      some (.byte 0, 90, some .outOfSession) := by decide +kernel

/-- S13: inactive, error 1. -/
theorem test_exit_inactive : summary (exec .exit off) = some (.byte 0, 0, 1) := by decide

/-- S16. -/
theorem test_getError : summary (exec .getError { c [] with errorFlag := 2 }) = some (.byte 2, 0, 2) := by decide

/-! ### The Instruction Layer -/

/-- I1. -/
theorem test_readConfig : summary (exec .readConfig (cs (false :: msbFirst 0x3C))) = some (.byte 0x3C, 87, 0) := by decide +kernel

/-- I3. -/
theorem test_writeConfig : summary (exec (.writeConfig 0x48) (cs (false :: msbFirst 0x48))) = some (.byte 0x48, 127, 0) := by
  decide +kernel

/-- I4. -/
theorem test_exec1 : summary (exec (.exec1 0xFF) (cs (false :: msbFirst 0xFF))) = some (.byte 0xFF, 127, 0) := by decide +kernel

/-- I5. -/
theorem test_exec2 : wire (exec (.exec2 0xE5 0x81) (cs (false :: msbFirst 0x10))) = some (.byte 0x10, 167, [0x52, 0xE5, 0x81]) := by
  decide +kernel

/-- I6. -/
theorem test_exec3 :
    wire (exec (.exec3 0x90 0x12 0x34) (cs (false :: msbFirst 0x34))) = some (.byte 0x34, 207, [0x53, 0x90, 0x12, 0x34]) := by
  decide +kernel

/-- P2: `execImm16(0x90, 0xF000)` sends `53 90 F0 00`. -/
theorem test_execImm16 :
    wire (exec (.execImm16 0x90 0xF000) (cs (false :: msbFirst 0xF0))) = some (.byte 0xF0, 207, [0x53, 0x90, 0xF0, 0x00]) := by
  decide +kernel

/-- E7, I10, on the adapter of D19. -/
theorem test_getChipId :
    summary (exec .getChipId (onFixture (.adapter [0xA5, 0x01]) (cs []))) = some (.word 0xA501, 127, 0) := by decide +kernel

/-- I13: high byte first. -/
theorem test_getPC : summary (exec .getPC (cs (false :: (msbFirst 0x00 ++ msbFirst 0xFF)))) = some (.word 0x00FF, 127, 0) := by
  decide +kernel

/-- I25: inactive, `0x0000` and error 1. -/
theorem test_getPC_inactive : summary (exec .getPC off) = some (.word 0, 0, 1) := by decide

/-- E8: `getStatus()` before any `enter()` returns 0 and sets error 2. -/
theorem test_getStatus_early : summary (exec .getStatus (c [])) = some (.byte 0, 0, 2) := by decide

/-- I22: from SAMPLE, 90 events. -/
theorem test_getStatus : summary (exec .getStatus (sampling (cs (false :: msbFirst 0xB2)))) = some (.byte 0xB2, 90, 0) := by
  decide +kernel

/-- P4: a busy target at pin level, 186 events. -/
theorem test_step_busy :
    summary (exec .step (cs ([true, true, true, false] ++ msbFirst 0x3C))) = some (.byte 0x3C, 186, 0) := by decide +kernel

/-- I16: under `MASS_ERASE_FRAME = [0x10]`, `MASS_ERASE_READS = 1`. -/
theorem test_massErase_one :
    (fun s => (s.result, s.trace.length, s.written)) (massEraseCall { first := 0x10, rest := [] } 1 (cs (false :: msbFirst 0x80))) =
      (.byte 0x80, 87, [0x10]) := by decide +kernel

/-- I17: under `[0xAA, 0xBB]` and 2 reads the last byte read is the result. -/
theorem test_massErase_two :
    (fun s => (s.result, s.trace.length, s.written))
        (massEraseCall { first := 0xAA, rest := [0xBB] } 2 (cs (false :: (msbFirst 0x01 ++ msbFirst 0x02)))) =
      (.byte 0x02, 167, [0xAA, 0xBB]) := by decide +kernel

/-- I18. -/
theorem test_exec : wire (exec (.exec [0xA3]) (cs (false :: msbFirst 0x00))) = some (.byte 0, 127, [0x51, 0xA3]) := by decide +kernel

/-- I26: `exec([])` is refused before any check, also inactive. -/
theorem test_exec_refused : nextOf (exec (.exec []) off) = some { off with refused := true } := by decide

/-- The frame the next step runs: `0x58` placed as the host's next call is `step()`, out of session error 2. -/
theorem test_step_runs_word : summary (step ((c []).withFetchWord 8 0x58)) = some (.byte 0, 0, 2) := by decide

/-! ### Every statement with hypotheses has a state and operands that meet them -/

/-- The lines of CS (R28). -/
theorem legal_cs (answers : List Bit) : (cs answers).Legal :=
  ⟨.inl rfl, fun _ => rfl, rfl, fun _ => rfl, fun _ => ⟨rfl, rfl, rfl, by simp [cs, c, State.reset]⟩, by simp [cs, c, State.reset],
    by simp [cs, c, State.reset], by simp [cs, c, State.reset]⟩

/-- The lines of a transaction in flight. -/
theorem legal_waiting (answers : List Bit) : (waitingFor (.transaction 1 .lastByte) answers).Legal :=
  ⟨.inl rfl, fun _ => rfl, rfl, fun _ => rfl, fun _ => ⟨rfl, rfl, rfl, by simp [waitingFor, sampling]⟩,
    by simp [waitingFor, sampling, cs, c, State.reset], fun _ => ⟨rfl, rfl⟩, by
      intro n fin h
      simp only [waitingFor, Option.some.injEq, InFlight.transaction.injEq] at h
      exact ⟨rfl, rfl, h.1 ▸ Nat.le_refl 1⟩⟩

theorem gives_zeros (n k : Nat) : ({ spent with answers := zeros n k } : Target).Gives
    (List.replicate k true ++ false :: (List.replicate n (0#8 : U8)).flatMap msbFirst) spent :=
  ⟨rfl, by simp [zeros, spent], rfl⟩

/-- A target at the pins that serves `n` bytes after `k` busy samples. -/
theorem serves_zeros (n k : Nat) : (cs (zeros n k)).target.Serves k (List.replicate n (0#8 : U8)) spent := .inl (gives_zeros n k)

/-- The byte-stream adapter serves what its script holds. -/
theorem serves_adapter (bytes script : List U8) (s : State) :
    (onFixture (.adapter (bytes ++ script)) s).target.Serves 0 bytes { fixture := .adapter script, answers := [], draws := 0 } :=
  .inr ⟨rfl, script, rfl, rfl⟩

theorem test_hyp_StepKeepsTheInvariant :
    (∃ s t, s = waitingFor (.transaction 1 .lastByte) (false :: msbFirst 0) ∧ s.Legal ∧ step s = .next t) ∧
      ∃ s t, s = { cs [] with calls := [.exit] } ∧ s.Legal ∧ step s = .next t :=
  ⟨⟨_, _, rfl, legal_waiting _, rfl⟩,
    ⟨_, _, rfl, ⟨.inl rfl, fun _ => rfl, rfl, fun _ => rfl, (legal_cs []).driven, (legal_cs []).passive, (legal_cs []).waiting,
      (legal_cs []).transacting⟩, rfl⟩⟩

theorem test_hyp_HostCallKeepsTheInvariant :
    (∃ t, (cs []).Legal ∧ exec (.activate false) (cs []) = .next t) ∧
      ∃ t, (waitingFor (.transaction 1 .lastByte) []).Legal ∧ exec .getError (waitingFor (.transaction 1 .lastByte) []) = .next t :=
  ⟨⟨_, legal_cs [], rfl⟩, ⟨_, legal_waiting [], rfl⟩⟩

theorem test_hyp_StepEmitsDisciplinedEvents :
    (∃ t, (waitingFor (.transaction 1 .lastByte) [true]).Legal ∧ step (waitingFor (.transaction 1 .lastByte) [true]) = .next t) ∧
      ∃ t, (cs []).Legal ∧ step (cs []) = .next t :=
  ⟨⟨_, legal_waiting _, rfl⟩, ⟨_, legal_cs _, rfl⟩⟩

theorem test_hyp_StepRunsTheNextCall :
    (({ c [] with calls := [.enter, .exit] } : State).Idle ∧ ({ c [] with calls := [.enter, .exit] } : State).calls = .enter :: [.exit]) ∧
      ((c []).Idle ∧ (c []).calls = []) ∧ decodeTableWord 8 0x68 = some .getChipId :=
  ⟨⟨rfl, rfl⟩, ⟨rfl, rfl⟩, by decide⟩

theorem test_hyp_BusySampleKeepsTheOperationInFlight :
    (∃ k, (waitingFor (.transaction 1 .lastByte) [true]).inFlight = some k ∧
      (waitingFor (.transaction 1 .lastByte) [true]).target.fixture = .pins ∧
        (waitingFor (.transaction 1 .lastByte) [true]).target.answers = true :: []) ∧
      (waitingFor .handshake []).inFlight = some .handshake ∧ (waitingFor .handshake []).target.fixture = .pins ∧
        (waitingFor .handshake []).target.answers = [] :=
  ⟨⟨_, rfl, rfl, rfl⟩, rfl, rfl, rfl⟩

theorem test_hyp_BusyTargetNeverLetsGo :
    ((waitingFor .handshake [true, true, false]).inFlight = some .handshake ∧
      (waitingFor .handshake [true, true, false]).target.fixture = .pins ∧
        (waitingFor .handshake [true, true, false]).target.answers = List.replicate 2 true ++ [false]) ∧
      (waitingFor .handshake []).target.answers = List.replicate 0 true ++ [] ∧
        ((c [true, true]).Idle ∧ (c [true, true]).active = true ∧ (c [true, true]).target.fixture = .pins ∧
          (c [true, true]).target.answers = List.replicate 2 true) ∧ (c []).target.answers = List.replicate 0 true :=
  ⟨⟨rfl, rfl, rfl⟩, rfl, ⟨rfl, rfl, rfl, rfl⟩, rfl⟩

theorem test_hyp_WaitingHandshakeReturns :
    ((waitingFor .handshake [false]).inFlight = some .handshake ∧
      (waitingFor .handshake [false]).target.Gives (List.replicate 0 true ++ [false]) spent) ∧
      (waitingFor .handshake [true, false]).target.Gives (List.replicate 1 true ++ [false]) spent :=
  ⟨⟨rfl, rfl, rfl, rfl⟩, rfl, rfl, rfl⟩

/-- For each end of a transaction, at 0 and 1 busy samples and 1 and 2 bytes. -/
theorem test_hyp_WaitingTransactionReturns :
    (∀ fin : Finish,
      (waitingFor (.transaction 1 fin) (false :: msbFirst 0xA5)).inFlight = some (.transaction 1 fin) ∧
        (waitingFor (.transaction 1 fin) (false :: msbFirst 0xA5)).direction = .sample ∧ [(0xA5#8 : U8)].length = 1 ∧
          (waitingFor (.transaction 1 fin) (false :: msbFirst 0xA5)).target.Gives
            (List.replicate 0 true ++ false :: [(0xA5#8 : U8)].flatMap msbFirst) spent) ∧
      (waitingFor (.transaction 2 .word16) (true :: false :: (msbFirst 1 ++ msbFirst 2))).inFlight = some (.transaction 2 .word16) ∧
        (waitingFor (.transaction 2 .word16) (true :: false :: (msbFirst 1 ++ msbFirst 2))).direction = .sample ∧
          (waitingFor (.transaction 2 .word16) (true :: false :: (msbFirst 1 ++ msbFirst 2))).target.Gives
            (List.replicate 1 true ++ false :: [(1#8 : U8), 2#8].flatMap msbFirst) spent :=
  ⟨fun _ => ⟨rfl, rfl, rfl, rfl, rfl, rfl⟩, rfl, rfl, rfl, rfl, rfl⟩

/-- With a target that answers, and with one that has settled nothing. -/
theorem test_hyp_AcceptedTransactionReturnsOrWaits :
    (isTransaction .massErase = true ∧ isTransaction (.exec [0]) = true ∧ isTransaction .exit = true) ∧
      ((cs (zeros 1 1)).Idle ∧ (cs (zeros 1 1)).active = true ∧ (cs (zeros 1 1)).inSession = true) ∧
        (cs []).Idle ∧ (cs []).active = true ∧ (cs []).inSession = true :=
  ⟨⟨rfl, rfl, rfl⟩, ⟨rfl, rfl, rfl⟩, rfl, rfl, rfl⟩

theorem test_hyp_ReadingAFrameGivesItsOperation :
    Instr.onWire (.writeConfig 0xFF) = some (.writeConfig 0xFF) ∧
      Instr.onWire (.execImm16 0x90 0x1234) = some (.exec3 0x90 0x12 0x34) ∧ Instr.onWire (.exec [1, 2]) = some (.exec2 1 2) := by
  decide

theorem test_hyp_AReadFrameIsTheOperationsFrame : decode [0x52#8, 1, 2, 3] = .ok (.exec2 1 2, [3]) := by decide

theorem test_hyp_OnlyTheTenFramingBytesBeginAFrame :
    (0x00#8 : U8) ∉ framingBytes ∧ (0xFF#8 : U8) ∉ framingBytes ∧ (0x50#8 : U8) ∉ framingBytes ∧ (0x54#8 : U8) ∉ framingBytes ∧
      (0x53#8 : U8) ∈ framingBytes ∧ (0x18#8 : U8) ∈ framingBytes ∧ 3 ≤ [(1#8 : U8), 2, 3].length := by decide

theorem test_hyp_MassEraseFrameReadsBack : ({ first := 0x10, rest := [0x20] } : NonemptyBytes).first ∉ framingBytes := by decide

theorem test_hyp_SetDirectionSwitchesTheLine :
    (off.Idle ∧ off.active = false) ∧ ((c []).Idle ∧ (c []).active = true ∧ (c []).direction = .drive) ∧
      ((c []).direction ≠ .sample) ∧ (sampling (c [])).active = true ∧ (sampling (c [])).direction ≠ .drive :=
  ⟨⟨rfl, rfl⟩, ⟨rfl, rfl, rfl⟩, by decide, rfl, by decide⟩

theorem test_hyp_WriteByteShiftsAByteOut :
    (off.Idle ∧ off.active = false) ∧ ((c []).Idle ∧ (c []).active = true ∧ (c []).inSession = false) ∧
      (cs []).Idle ∧ (cs []).active = true ∧ (cs []).inSession = true :=
  ⟨⟨rfl, rfl⟩, ⟨rfl, rfl, rfl⟩, rfl, rfl, rfl⟩

theorem test_hyp_ReadByteReturnsWhatTheSamplesSpell : (off.Idle ∧ off.active = false) ∧ (c []).Idle ∧ (c []).active = true :=
  ⟨⟨rfl, rfl⟩, rfl, rfl⟩

theorem test_hyp_ReadByteReturnsTheTargetsByte :
    ((c (msbFirst 0xA5)).Idle ∧ (c (msbFirst 0xA5)).active = true ∧ (c (msbFirst 0xA5)).target.Gives (msbFirst 0xA5) spent) ∧
      ∃ script, (onFixture (.adapter [0xA5]) (c [])).target.fixture = .adapter (0xA5 :: script) :=
  ⟨⟨rfl, rfl, rfl, rfl, rfl⟩, [], rfl⟩

theorem test_hyp_AwaitReadableClocksABusyTarget :
    (off.Idle ∧ off.active = false) ∧
      ((cs (zeros 0 2)).Idle ∧ (cs (zeros 0 2)).active = true ∧ (cs (zeros 0 2)).target.Serves 2 [] spent) ∧
        (onFixture (.adapter []) (c [])).target.Serves 0 [] { fixture := .adapter [], answers := [], draws := 0 } :=
  ⟨⟨rfl, rfl⟩, ⟨rfl, rfl, serves_zeros 0 2⟩, serves_adapter [] [] _⟩

theorem test_hyp_RepeatedDirectionsEmitNothing :
    (∃ t u, exec (.setDirection .sample) (c []) = .next t ∧ exec (.setDirection .sample) t = .next u) ∧
      (∃ t u, (cs []).Idle ∧ (cs []).active = true ∧ (cs []).inSession = true ∧ exec (.writeByte 1) (cs []) = .next t ∧
        exec (.writeByte 2) t = .next u) ∧
        ∃ t u, (c [false]).Idle ∧ (c [false]).active = true ∧ exec .awaitReadable (c [false]) = .next t ∧ t.Idle ∧
          exec .readByte t = .next u := by
  have idle : (awaitReadableCall Config.primClearsError (c [false])).Idle := by cases Config.primClearsError <;> rfl
  exact ⟨⟨_, _, rfl, rfl⟩, ⟨_, _, rfl, rfl, rfl, rfl, rfl⟩, ⟨_, _, rfl, rfl, rfl, idle, hostCall_idle _ _ idle⟩⟩

/-- From each direction, and with a served target. -/
theorem test_hyp_PrimitiveEventCounts :
    (∃ t, (c []).Idle ∧ (c []).active = true ∧ exec (.setDirection (c []).direction) (c []) = .next t) ∧
      (∃ t, (sampling (c [])).direction = .sample ∧ exec (.setDirection .drive) (sampling (c [])) = .next t) ∧
        (∃ t, (c []).direction = .drive ∧ exec (.setDirection .sample) (c []) = .next t) ∧
          (∃ t, (cs []).inSession = true ∧ exec (.writeByte 0xA5) (cs []) = .next t) ∧
            (∃ t, exec .readByte (c []) = .next t) ∧
              ∃ t, (cs (zeros 0 1)).Idle ∧ (cs (zeros 0 1)).active = true ∧ (cs (zeros 0 1)).target.Serves 1 [] spent ∧
                exec .awaitReadable (cs (zeros 0 1)) = .next t :=
  ⟨⟨_, rfl, rfl, rfl⟩, ⟨_, rfl, rfl⟩, ⟨_, rfl, rfl⟩, ⟨_, rfl, rfl⟩, ⟨_, rfl⟩, ⟨_, rfl, rfl, serves_zeros 0 1, rfl⟩⟩

theorem test_hyp_ActivateSwitchesTheLines :
    (cs []).Idle ∧ true = (cs []).active ∧ (cs []).active = true ∧ off.Idle ∧ false = off.active ∧ off.active = false :=
  ⟨rfl, rfl, rfl, rfl, rfl, rfl⟩

theorem test_hyp_EnterRunsTheEntrySequence :
    (off.Idle ∧ off.active = false) ∧ ((cs []).Idle ∧ (cs []).active = true ∧ (cs []).inSession = true) ∧
      (c []).Idle ∧ (c []).active = true ∧ (c []).inSession = false :=
  ⟨⟨rfl, rfl⟩, ⟨rfl, rfl, rfl⟩, rfl, rfl, rfl⟩

/-- The three clauses of a transaction's statement, for a target at the pins with `k` busy samples and for the adapter. -/
def TransactionHypotheses (n k : Nat) : Prop :=
  (off.Idle ∧ off.active = false) ∧ ((c []).Idle ∧ (c []).active = true ∧ (c []).inSession = false) ∧
    (∃ (r : List U8) (t : Target), (cs (zeros n k)).Idle ∧ (cs (zeros n k)).active = true ∧ (cs (zeros n k)).inSession = true ∧
      r.length = n ∧ (cs (zeros n k)).target.Serves k r t) ∧
      ∃ (s : State) (r : List U8) (t : Target), s = onFixture (.adapter (List.replicate n 0xFF)) (cs []) ∧ s.Idle ∧ s.active = true ∧
        s.inSession = true ∧ r.length = n ∧ s.target.Serves 0 r t

theorem transaction_hypotheses (n k : Nat) : TransactionHypotheses n k :=
  ⟨⟨rfl, rfl⟩, ⟨rfl, rfl, rfl⟩, ⟨_, _, rfl, rfl, rfl, List.length_replicate, serves_zeros n k⟩,
    ⟨_, List.replicate n 0xFF, _, rfl, rfl, rfl, rfl, List.length_replicate, by simpa using serves_adapter (List.replicate n 0xFF) [] (cs [])⟩⟩

theorem test_hyp_ExitResumesAndLeaves :
    TransactionHypotheses 1 0 ∧ (cs (zeros 1 3)).target.Serves 3 [(0#8 : U8)] spent :=
  ⟨transaction_hypotheses 1 0, serves_zeros 1 3⟩

/-- readConfig, writeConfig, exec1, exec2, exec3, execImm16, getStatus, step: one byte read. -/
theorem test_hyp_ReadConfigTransaction : TransactionHypotheses 1 0 ∧ TransactionHypotheses 1 2 :=
  ⟨transaction_hypotheses 1 0, transaction_hypotheses 1 2⟩

theorem test_hyp_WriteConfigTransaction : TransactionHypotheses 1 0 ∧ TransactionHypotheses 1 1 :=
  ⟨transaction_hypotheses 1 0, transaction_hypotheses 1 1⟩

theorem test_hyp_Exec1Transaction : TransactionHypotheses 1 0 ∧ TransactionHypotheses 1 1 :=
  ⟨transaction_hypotheses 1 0, transaction_hypotheses 1 1⟩

theorem test_hyp_Exec2Transaction : TransactionHypotheses 1 0 ∧ TransactionHypotheses 1 1 :=
  ⟨transaction_hypotheses 1 0, transaction_hypotheses 1 1⟩

theorem test_hyp_Exec3Transaction : TransactionHypotheses 1 0 ∧ TransactionHypotheses 1 1 :=
  ⟨transaction_hypotheses 1 0, transaction_hypotheses 1 1⟩

theorem test_hyp_ExecImm16Transaction : TransactionHypotheses 1 0 ∧ TransactionHypotheses 1 1 :=
  ⟨transaction_hypotheses 1 0, transaction_hypotheses 1 1⟩

theorem test_hyp_GetChipIdTransaction : TransactionHypotheses 2 0 ∧ TransactionHypotheses 2 1 :=
  ⟨transaction_hypotheses 2 0, transaction_hypotheses 2 1⟩

theorem test_hyp_GetPCTransaction : TransactionHypotheses 2 0 ∧ TransactionHypotheses 2 1 :=
  ⟨transaction_hypotheses 2 0, transaction_hypotheses 2 1⟩

theorem test_hyp_GetStatusTransaction : TransactionHypotheses 1 0 ∧ TransactionHypotheses 1 1 :=
  ⟨transaction_hypotheses 1 0, transaction_hypotheses 1 1⟩

theorem test_hyp_SingleStepTransaction : TransactionHypotheses 1 0 ∧ TransactionHypotheses 1 2 :=
  ⟨transaction_hypotheses 1 0, transaction_hypotheses 1 2⟩

/-- Whatever `MASS_ERASE_READS` is. -/
theorem test_hyp_MassEraseTransaction :
    TransactionHypotheses Config.massEraseReads 0 ∧ TransactionHypotheses Config.massEraseReads 1 :=
  ⟨transaction_hypotheses _ 0, transaction_hypotheses _ 1⟩

theorem test_hyp_ExecExpandsByLength :
    TransactionHypotheses 1 0 ∧ ([] : List U8).length = 0 ∧ 3 < [(1#8 : U8), 2, 3, 4].length :=
  ⟨transaction_hypotheses 1 0, rfl, by decide⟩

theorem test_hyp_SessionTransitions :
    (∃ t, off.Idle ∧ off.mode = some .inactive ∧ exec (.activate true) off = .next t ∧ t.Idle) ∧
      (∃ t, (c []).Idle ∧ (c []).mode = some .outOfSession ∧ exec .enter (c []) = .next t ∧ t.Idle) ∧
        ∃ t, (cs (zeros 1 0)).Idle ∧ (cs (zeros 1 0)).mode = some .inSession ∧ exec .exit (cs (zeros 1 0)) = .next t ∧ t.Idle :=
  ⟨⟨_, rfl, rfl, rfl, rfl⟩, ⟨_, rfl, rfl, rfl, rfl⟩, ⟨_, rfl, rfl, rfl, rfl⟩⟩

theorem test_hyp_EnterThenExitComesBack :
    (c (zeros 1 1)).Idle ∧ (c (zeros 1 1)).mode = some .outOfSession ∧ (c (zeros 1 1)).target.Serves 1 [(0#8 : U8)] spent :=
  ⟨rfl, rfl, serves_zeros 1 1⟩

theorem test_hyp_TransactionEventCount :
    isTransaction .massErase = true ∧ bytesRead .massErase = Config.massEraseReads ∧ TransactionHypotheses (bytesRead .massErase) 1 ∧
      isTransaction .exit = true ∧ TransactionHypotheses (bytesRead .exit) 0 :=
  ⟨rfl, rfl, transaction_hypotheses _ 1, rfl, transaction_hypotheses _ 0⟩

theorem test_hyp_TransactionLeavesTheLinesAtRest :
    (∃ t, isTransaction .exit = true ∧ (cs (zeros 1 1)).Idle ∧ (cs (zeros 1 1)).active = true ∧ (cs (zeros 1 1)).inSession = true ∧
      exec .exit (cs (zeros 1 1)) = .next t ∧ t.Idle) ∧
      ∃ t, isTransaction (.exec [0, 0, 0]) = true ∧ exec (.exec [0, 0, 0]) (cs (zeros 1 1)) = .next t ∧ t.Idle :=
  ⟨⟨_, rfl, rfl, rfl, rfl, rfl, rfl⟩, ⟨_, rfl, rfl, rfl⟩⟩

theorem test_hyp_TransactionIsItsPrimitiveCalls :
    ∃ u, isTransaction .getPC = true ∧ Instr.getPC ≠ .exit ∧ (cs (zeros 2 1)).Idle ∧ (cs (zeros 2 1)).active = true ∧
      (cs (zeros 2 1)).inSession = true ∧ (cs (zeros 2 1)).errorFlag = 0#8 ∧ exec .getPC (cs (zeros 2 1)) = .next u ∧ u.Idle :=
  ⟨_, rfl, by decide, rfl, rfl, rfl, rfl, rfl, rfl⟩

theorem test_hyp_InactiveCallsReportErrorOne :
    needsActive .awaitReadable = true ∧ needsActive (.exec [0]) = true ∧ needsActive .massErase = true ∧ off.Idle ∧ off.active = false ∧
      ([] : List U8).length = 0 ∧ 3 < [(1#8 : U8), 2, 3, 4].length :=
  ⟨rfl, rfl, rfl, rfl, rfl, rfl, by decide⟩

theorem test_hyp_OutOfSessionCallsReportErrorTwo :
    needsSession (.writeByte 0x55) = true ∧ needsSession .exit = true ∧ (c []).Idle ∧ (c []).active = true ∧
      (c []).inSession = false :=
  ⟨rfl, rfl, rfl, rfl, rfl⟩

theorem test_hyp_CallsOutsideTheContractAreRefused :
    ¬ (waitingFor .handshake []).Idle ∧ ((cs []).Idle ∧ (cs []).active = true ∧ (cs []).inSession = true) ∧
      off.Idle ∧ ([] : List U8).length = 0 ∧ 3 < [(1#8 : U8), 2, 3, 4].length :=
  ⟨by simp [State.Idle, waitingFor], ⟨rfl, rfl, rfl⟩, rfl, rfl, by decide⟩

theorem test_hyp_RefusedMarkStaysAndIsNotRead :
    ∃ t, exec .step { cs (zeros 1 0) with refused := true } = .next t ∧ ({ cs (zeros 1 0) with refused := true } : State).refused = true :=
  ⟨_, rfl, rfl⟩

theorem test_hyp_TraceIsNotRead : ∃ t, exec .step (cs (zeros 1 1)) = .next t := ⟨_, rfl⟩

theorem test_hyp_ModeFlagsWrittenOnlyBySessionCalls :
    ∃ t, exec .step (cs (zeros 1 0)) = .next t ∧ (∀ on, Instr.step ≠ .activate on) ∧ Instr.step ≠ .enter ∧ Instr.step ≠ .exit :=
  ⟨_, rfl, by simp, by decide, by decide⟩

theorem test_hyp_ResetLineWrittenOnlyByActivateAndEnter :
    ∃ t, exec .exit (cs (zeros 1 0)) = .next t ∧ (∀ on, Instr.exit ≠ .activate on) ∧ Instr.exit ≠ .enter :=
  ⟨_, rfl, by simp, by decide⟩

theorem test_hyp_CallsWriteOnlyTheirFrame : ∃ t, exec (.writeConfig 1) (cs (zeros 1 0)) = .next t := ⟨_, rfl⟩

theorem test_hyp_CallsWithoutSamplesLeaveTheTarget :
    ∃ t, exec (.writeByte 1) (cs [true]) = .next t ∧ isTransaction (.writeByte 1) = false ∧ Instr.writeByte 1 ≠ .readByte ∧
      Instr.writeByte 1 ≠ .awaitReadable :=
  ⟨_, rfl, rfl, by decide, by decide⟩

theorem test_hyp_RoundTripFixtureReturnsTheByte :
    (onFixture .roundTrip (cs [])).Idle ∧ (onFixture .roundTrip (cs [])).active = true ∧
      (onFixture .roundTrip (cs [])).inSession = true ∧ (onFixture .roundTrip (cs [])).target.fixture = .roundTrip :=
  ⟨rfl, rfl, rfl, rfl⟩

theorem test_hyp_ConfigFixtureEchoesTheConfiguration :
    (onFixture .configEcho (cs [])).Idle ∧ (onFixture .configEcho (cs [])).active = true ∧
      (onFixture .configEcho (cs [])).inSession = true ∧ (onFixture .configEcho (cs [])).target.fixture = .configEcho ∧
        (onFixture .configEcho (cs [])).written = [] :=
  ⟨rfl, rfl, rfl, rfl, rfl⟩

theorem test_hyp_HoldsTakeTheirDurations :
    (∃ t, (cs []).Idle ∧ (cs []).active = true ∧ (cs []).inSession = true ∧ exec (.writeByte 0xA5) (cs []) = .next t) ∧
      (∃ t, (c []).Idle ∧ (c []).active = true ∧ (c []).inSession = false ∧ exec .enter (c []) = .next t) ∧
        ∃ t, (waitingFor .handshake [true]).inFlight = some .handshake ∧ (waitingFor .handshake [true]).target.fixture = .pins ∧
          (waitingFor .handshake [true]).target.answers = true :: [] ∧ step (waitingFor .handshake [true]) = .next t :=
  ⟨⟨_, rfl, rfl, rfl, rfl⟩, ⟨_, rfl, rfl, rfl, rfl⟩, ⟨_, rfl, rfl, rfl, rfl⟩⟩

theorem test_hyp_TwoByteResultsAreBigEndian :
    ((cs (false :: [(0xA5#8 : U8), 0x01#8].flatMap msbFirst)).Idle ∧
      (cs (false :: [(0xA5#8 : U8), 0x01#8].flatMap msbFirst)).target.Serves 0 [0xA5#8, 0x01#8] spent) ∧
      (onFixture (.adapter [0xFF, 0xFF]) (cs [])).target.Serves 0 [0xFF#8, 0xFF#8] { fixture := .adapter [], answers := [], draws := 0 } :=
  ⟨⟨rfl, .inl ⟨rfl, rfl, rfl⟩⟩, serves_adapter [0xFF#8, 0xFF#8] [] _⟩

end Sys2Proof.Tests
end

section
/-! O47: a finished transaction is the sequence of direct primitive calls it is written from (R11, R160). A direct call runs the
very body the transaction runs, so the two runs stay on one state but for the result, which only a return writes. -/

namespace Sys2Proof.Machine

open Sys2Proof.Claims

/-! ### States that accept every call of a transaction -/

/-- An idle engine in session with a clear flag: every check of a primitive passes and clearing the flag is no change. -/
structure State.Ready (s : State) : Prop where
  idle : s.Idle
  active : s.active = true
  inSession : s.inSession = true
  flag : s.errorFlag = 0#8

/-- The state with another result. -/
def State.withResult (s : State) (r : Result) : State := { s with result := r }

theorem State.withResult_emitAll (s : State) (r : Result) (es : List Event) :
    (s.withResult r).emitAll es = (s.emitAll es).withResult r := by
  simp only [State.emitAll_eq, State.withResult]

theorem State.done_eq_withResult {s : State} (h : s.Idle) (r : Result) : s.done r = s.withResult r := by
  simp only [State.done, State.withResult, show s.inFlight = none from h]

/-- Readiness does not depend on what a primitive's body writes. -/
theorem State.Ready.emits {s : State} (h : s.Ready) (es : List Event) (d : Direction) (w : List U8) (t : Target) (r : Result) :
    State.Ready { s.emitAll es with direction := d, written := w, target := t, result := r } where
  idle := (s.emitAll_inFlight es).trans h.idle
  active := (s.emitAll_active es).trans h.active
  inSession := (s.emitAll_inSession es).trans h.inSession
  flag := (s.emitAll_errorFlag es).trans h.flag

theorem State.Ready.withResult {s : State} (h : s.Ready) (r : Result) : (s.withResult r).Ready :=
  h.emits [] _ _ _ r

theorem State.Ready.writeBits {s : State} (h : s.Ready) (v : U8) : (s.writeBits v).Ready := by
  rw [State.writeBits_eq]
  exact h.emits _ _ _ _ _

theorem State.Ready.writeFrame {s : State} (h : s.Ready) (frame : List U8) : (State.writeFrame frame s).Ready := by
  induction frame generalizing s with
  | nil => exact h
  | cons b frame ih => exact ih (h.writeBits b)

theorem State.Ready.readBits {s : State} (h : s.Ready) : s.readBits.2.Ready := by
  rw [State.readBits_eq]
  exact h.emits _ _ _ _ _

theorem State.Ready.readResult {s : State} (h : s.Ready) (n : Nat) : (State.readResult n s).2.Ready := by
  induction n generalizing s with
  | zero => exact h
  | succ n ih => exact ih h.readBits

theorem State.Ready.switchDirection {s : State} (h : s.Ready) (d : Direction) : (s.switchDirection d).Ready := by
  rw [State.switchDirection_eq]
  exact h.emits _ _ _ _ _

theorem clearErrorIf_ready (clears : Bool) {s : State} (h : s.Ready) : clearErrorIf clears s = s := by
  rw [clearErrorIf_eq, ← h.flag, ite_self]

/-! ### Direct calls of the primitives in a ready state -/

/-- A direct call of a primitive in a ready state is its body (R101, R103, R104). -/
theorem hostCall_primitiveCall_ready (clears : Bool) (rej : Result) (body : State → State) {s : State} (h : s.Ready) :
    hostCall (primitiveCall clears rej body) s = .next (body s) := by
  rw [hostCall_idle _ _ h.idle, primitiveCall_active _ _ _ _ h.active, clearErrorIf_ready clears h]

theorem exec_setDirection_ready (d : Direction) {s : State} (h : s.Ready) (r : Result) :
    exec (.setDirection d) (s.withResult r) = .next ((s.switchDirection d).withResult .nothing) := by
  refine (hostCall_primitiveCall_ready _ _ _ (h.withResult r)).trans (congrArg _ ?_)
  rw [State.done_eq_withResult ((h.withResult r).switchDirection d).idle]
  simp only [State.switchDirection_eq, State.withResult_emitAll]
  rfl

theorem exec_writeByte_ready (v : U8) {s : State} (h : s.Ready) (r : Result) :
    exec (.writeByte v) (s.withResult r) = .next ((s.writeBits v).withResult .nothing) := by
  have hr := h.withResult r
  refine (hostCall_idle _ _ hr.idle).trans (congrArg _ ?_)
  simp only [writeByteCall, sessionPrimitiveCall, sessionCheck, hr.active, hr.inSession, if_true, clearErrorIf_ready _ hr]
  rw [State.done_eq_withResult (hr.writeBits v).idle]
  simp only [State.writeBits_eq, State.withResult_emitAll]
  rfl

theorem exec_readByte_ready {s : State} (h : s.Ready) (r : Result) :
    exec .readByte (s.withResult r) = .next (s.readBits.2.withResult (.byte s.readBits.1)) := by
  refine (hostCall_primitiveCall_ready _ _ _ (h.withResult r)).trans (congrArg _ ?_)
  rw [State.done_eq_withResult (h.withResult r).readBits.idle]
  simp only [State.readBits_eq, State.withResult_emitAll]
  rfl

theorem exec_awaitReadable_ready {s : State} (h : s.Ready) :
    exec .awaitReadable s = .next (s.await .handshake) :=
  hostCall_primitiveCall_ready _ _ _ h

/-! ### The wait is the same whatever it is for -/

/-- The loop of `awaitReadable` (R104) looks neither at what waits nor at the result: it finds the target ready in one state for all of
them, or lets none of them go. -/
theorem State.poll_uniform (n : Nat) {s : State} (h : s.Ready) :
    (∃ w : State, w.Ready ∧ ∀ k r, State.poll k n (s.withResult r) = (w.withResult r).afterReady k) ∨
      ∀ k r, ¬ (State.poll k n (s.withResult r)).Idle := by
  induction n generalizing s with
  | zero => exact .inr fun k r => by simp [State.poll, State.Idle]
  | succ n ih =>
    cases hb : s.target.next.1 with
    | false =>
      refine .inl ⟨{ s.emitAll [.pinSample .ddi false, .hold .settle] with target := s.target.next.2 }, h.emits _ _ _ _ _, ?_⟩
      intro k r
      rw [State.poll_ready k n (s.withResult r) hb, State.withResult_emitAll]
      rfl
    | true =>
      have turn : ∀ k r, State.poll k (n + 1) (s.withResult r) =
          State.poll k n
            (State.withResult { s.emitAll (.pinSample .ddi true :: Trace.P8) with target := s.target.next.2 } r) := by
        intro k r
        rw [State.poll_busy k n (s.withResult r) hb, State.withResult_emitAll]
        rfl
      simp only [turn]
      exact ih (h.emits _ _ _ _ _)

/-- The body of `awaitReadable` (R104), for a direct call and for every transaction alike. -/
theorem State.await_uniform {s : State} (h : s.Ready) :
    (∃ w : State, w.Ready ∧ ∀ k r, (s.withResult r).await k = (w.withResult r).afterReady k) ∨
      ∀ k r, ¬ ((s.withResult r).await k).Idle := by
  have start : ∀ k r, (s.withResult r).await k =
      State.poll k s.target.cuePoll.answers.length
        (State.withResult { s.emitAll (Trace.switch s.direction .sample ++ [.hold .settle]) with
          direction := .sample, target := s.target.cuePoll } r) := by
    intro k r
    rw [State.await_eq, State.withResult_emitAll]
    rfl
  simp only [start]
  exact State.poll_uniform _ (h.emits _ _ _ _ _)

/-! ### Sequences of direct calls -/

theorem runCalls_cons {i : Instr} {s t : State} (h : exec i s = .next t) (is : List Instr) :
    runCalls (i :: is) s = runCalls is t := by
  rw [runCalls, h]

/-- `writeByte` called for each byte of a frame writes the frame. -/
theorem runCalls_writes (frame : List U8) (is : List Instr) {s : State} (h : s.Ready) (r : Result) :
    ∃ r', runCalls (frame.map .writeByte ++ is) (s.withResult r) = runCalls is ((State.writeFrame frame s).withResult r') := by
  induction frame generalizing s r with
  | nil => exact ⟨r, rfl⟩
  | cons b frame ih =>
    obtain ⟨r', hr⟩ := ih (h.writeBits b) .nothing
    exact ⟨r', (runCalls_cons (exec_writeByte_ready b h r) _).trans hr⟩

/-- `readByte` called `n` times reads what `n` reads of a transaction read. -/
theorem runCalls_reads (n : Nat) (is : List Instr) {s : State} (h : s.Ready) (r : Result) :
    ∃ r', runCalls (List.replicate n .readByte ++ is) (s.withResult r) =
      runCalls is ((State.readResult n s).2.withResult r') := by
  induction n generalizing s r with
  | zero => exact ⟨r, rfl⟩
  | succ n ih =>
    obtain ⟨r', hr⟩ := ih h.readBits (.byte s.readBits.1)
    exact ⟨r', (runCalls_cons (exec_readByte_ready h r) _).trans hr⟩

/-- The primitive calls a transaction is written from (R160). -/
def primitiveCalls (frame : List U8) (n : Nat) : List Instr :=
  frame.map .writeByte ++ [.awaitReadable] ++ List.replicate n .readByte ++ [.setDirection .drive]

/-- The primitive calls of a transaction, where the wait after the frame ends in `w`. -/
theorem runCalls_primitiveCalls (frame : List U8) (n : Nat) {s w : State} (h : s.Ready) (hw : w.Ready)
    (ends : ∀ r, ((State.writeFrame frame s).withResult r).await .handshake = (w.withResult r).afterReady .handshake) :
    runCalls (primitiveCalls frame n) s = some (((State.readResult n w).2.switchDirection .drive).withResult .nothing) := by
  simp only [primitiveCalls, List.append_assoc]
  obtain ⟨r₁, hwrites⟩ := runCalls_writes frame
    ([.awaitReadable] ++ (List.replicate n .readByte ++ [.setDirection .drive])) h s.result
  obtain ⟨r₂, hreads⟩ := runCalls_reads n [.setDirection .drive] hw .nothing
  have hwait := exec_awaitReadable_ready ((h.writeFrame frame).withResult r₁)
  rw [ends, State.afterReady_handshake, State.done_eq_withResult (hw.withResult r₁).idle] at hwait
  exact hwrites.trans <| (runCalls_cons hwait _).trans <| hreads.trans <|
    runCalls_cons (exec_setDirection_ready .drive (hw.readResult n) r₂) []

/-! ### Transactions -/

/-- A transaction but `exit`'s ends as a call does that only returns a value. -/
theorem State.conclude_eq_done (s : State) (bytes : List U8) {fin : Finish} (h : fin ≠ .leaveSession) :
    ∃ r, s.conclude bytes fin = s.done r := by
  cases fin with
  | lastByte | word16 => exact ⟨_, rfl⟩
  | leaveSession => exact absurd rfl h

/-- A transaction that returned leaves what its primitive calls leave, but for the result (R11, R160). -/
theorem transact_eq_primitiveCalls (frame : List U8) (n : Nat) {fin : Finish} (rej : Result) {s : State} (h : s.Ready)
    (hfin : fin ≠ .leaveSession) (returned : (transact frame n fin rej s).Idle) :
    ∃ v r, runCalls (primitiveCalls frame n) s = some v ∧ transact frame n fin rej s = v.withResult r := by
  have hrun : transact frame n fin rej s = (State.writeFrame frame s).await (.transaction n fin) :=
    (transact_accepted frame n fin rej s h.active h.inSession).trans
      (by rw [show clearError s = s from clearErrorIf_ready true h])
  rw [hrun] at returned ⊢
  rcases State.await_uniform (h.writeFrame frame) with ⟨w, hw, ends⟩ | waits
  · have hw' := hw.withResult (State.writeFrame frame s).result
    obtain ⟨r, hr⟩ := State.conclude_eq_done ((State.readResult n (w.withResult _)).2.switchDirection .drive)
      (State.readResult n (w.withResult _)).1 hfin
    refine ⟨_, r, runCalls_primitiveCalls frame n h hw' (ends .handshake), (ends _ _).trans (hr.trans ?_)⟩
    exact State.done_eq_withResult ((hw'.readResult n).switchDirection .drive).idle r
  · exact absurd returned (waits _ (State.writeFrame frame s).result)

/-- Every operation with a frame but `exit` is a transaction that reads the bytes of R72's table and stays in session. -/
theorem transactionOf_of_isTransaction (i : Instr) (h : isTransaction i = true) (hne : i ≠ .exit) :
    ∃ fin rej, fin ≠ .leaveSession ∧ transactionOf i = some (encode i, bytesRead i, fin, rej) := by
  cases i with
  | exec ocs =>
    match ocs, h with
    | [_], _ | [_, _], _ | [_, _, _], _ => exact ⟨.lastByte, _, by decide, rfl⟩
  | exit => exact absurd rfl hne
  | setDirection | writeByte | readByte | awaitReadable | activate | enter | getError => simp [isTransaction] at h
  | getChipId | getPC => exact ⟨.word16, _, by decide, rfl⟩
  | _ => exact ⟨.lastByte, _, by decide, rfl⟩

end Sys2Proof.Machine

namespace Sys2Proof.Claims

open Sys2Proof.Machine

/-- Settles O47: the body of each direct call is the body the transaction runs, and the wait ends in one state for both. -/
theorem transactionIsItsPrimitiveCalls : Obligations.TransactionIsItsPrimitiveCalls := by
  intro i s u hi hne idle active inSession flag hexec returned
  obtain ⟨fin, rej, hfin, hof⟩ := transactionOf_of_isTransaction i hi hne
  rw [exec_transaction i _ _ _ _ s hof, hostCall_idle _ s idle] at hexec
  cases hexec
  obtain ⟨v, r, hrun, hu⟩ := transact_eq_primitiveCalls (encode i) (bytesRead i) rej ⟨idle, active, inSession, flag⟩ hfin returned
  exact ⟨v, hrun, by rw [hu]; rfl⟩

end Sys2Proof.Claims
end

section
/-! O1, O3 to O7: the invariant of the engine and the discipline of its pin events. Both are case splits over what a call (`Effect`) and
a turn of a wait (`State.resume_outcomes`) can do, and on an active engine both follow from the events being a `Block`. -/

namespace Sys2Proof.Machine

open Sys2Proof.Trace

/-! ### The session's own traces, which are no blocks -/

/-- The change to active leaves the lines driven whatever they were (R28, R131). -/
theorem Pins.up_driveLines (ps : Pins) : (pinsAfter ps driveLines).Up .drive :=
  ⟨rfl, rfl, iff_of_true rfl rfl, rfl⟩

theorem Pins.disciplined_driveLines (ps : Pins) : disciplined ps driveLines = true := rfl

theorem Pins.disciplined_releaseLines (ps : Pins) : disciplined ps releaseLines = true := rfl

/-- The entry sequence keeps the lines driven and is allowed on them (R132, R241). -/
theorem Pins.Up.entry {ps : Pins} {d : Direction} (up : ps.Up d) :
    (pinsAfter ps Trace.entry).Up d ∧ disciplined ps Trace.entry = true := by
  obtain ⟨⟨_, _⟩, ⟨_, _⟩, ⟨_, _⟩, ⟨_, _⟩⟩ := ps
  obtain ⟨hrst, hdc, hddo, hddi⟩ := up
  cases hrst
  cases hdc
  exact ⟨⟨rfl, rfl, hddo, hddi⟩, rfl⟩

/-! ### The invariant -/

theorem State.reset_legal : State.reset.Legal :=
  State.legal_of_up rfl (Pins.up_driveLines State.reset.pins) (.inl rfl) nofun (fun h => absurd rfl h) nofun

theorem State.Legal.refuse {s : State} (h : s.Legal) : s.refuse.Legal :=
  ⟨h.flag, h.session, h.ddiInput, h.rstHigh, h.driven, h.passive, h.waiting, h.transacting⟩

theorem State.Legal.withCalls {s : State} (h : s.Legal) (calls : List Instr) : State.Legal { s with calls := calls } :=
  ⟨h.flag, h.session, h.ddiInput, h.rstHigh, h.driven, h.passive, h.waiting, h.transacting⟩

/-- With nothing in flight, a flag and a result in the place of the old ones keep the invariant. -/
theorem State.Legal.returned {s : State} (h : s.Legal) (idle : s.Idle) {f : U8} (hf : f = 0#8 ∨ f = 1#8 ∨ f = 2#8) (r : Result) :
    State.Legal { s with errorFlag := f, result := r } where
  flag := hf
  session := h.session
  ddiInput := h.ddiInput
  rstHigh := h.rstHigh
  driven := h.driven
  passive := h.passive
  waiting w := absurd idle w
  transacting _ _ k := nomatch idle.symm.trans k

theorem State.Legal.reject {s : State} (h : s.Legal) (idle : s.Idle) {c : U8} (hc : c = 0#8 ∨ c = 1#8 ∨ c = 2#8) (r : Result) :
    (s.reject c r).Legal := by
  simpa only [State.reject, State.done, ← show s.inFlight = none from idle] using h.returned idle hc r

/-- The flag an accepted call of a primitive leaves is a code of R24. -/
theorem State.Legal.primitiveFlag {s : State} (h : s.Legal) {f : U8} (hf : f = 0#8 ∨ f = s.errorFlag) :
    f = 0#8 ∨ f = 1#8 ∨ f = 2#8 := by
  rcases hf with rfl | rfl
  · exact .inl rfl
  · exact h.flag

/-- A block after which nothing is in flight keeps a legal active engine legal. -/
theorem State.Legal.of_block_idle {s t : State} {d d' : Direction} {es : List Event} (h : s.Legal) (up : s.pins.Up d)
    (b : Block d es d') (pins : t.pins = pinsAfter s.pins es) (dir : t.direction = d') (on : t.active = true)
    (flag : t.errorFlag = 0#8 ∨ t.errorFlag = 1#8 ∨ t.errorFlag = 2#8) (ses : t.inSession = true → s.inSession = true)
    (idle : t.Idle) : t.Legal :=
  h.of_block up b pins dir on flag ses (absurd idle) fun _ _ k => nomatch idle.symm.trans k

/-- The end of a transaction opens no session. -/
theorem State.inSession_of_concluded {s : State} {bytes : List U8} {fin : Finish}
    (h : (s.concluded bytes fin).inSession = true) : s.inSession = true := by
  cases fin with
  | lastByte | word16 => exact h
  | leaveSession => exact nomatch h

/-- Every host call keeps the invariant. -/
theorem State.Legal.effect {s t : State} {i : Instr} (h : s.Legal) (e : Effect s i t) : t.Legal := by
  cases e with
  | refused => exact h.refuse
  | inactive _ r idle => exact h.reject idle (.inr (.inl rfl)) r
  | outOfSession _ r idle => exact h.reject idle (.inr (.inr rfl)) r
  | setDirection d f idle on hf =>
    exact h.of_block_idle (h.up on) (.switch _ d) rfl rfl on (h.primitiveFlag hf) id idle
  | writeByte v f idle on _ hf =>
    exact h.of_block_idle (h.up on) ((Block.switch _ _).append (.writeByte v)) rfl rfl on (h.primitiveFlag hf) id idle
  | readByte f v _ idle on hf =>
    exact h.of_block_idle (h.up on) ((Block.switch _ _).append (.readByte v)) rfl rfl on (h.primitiveFlag hf) id idle
  | awaited f j _ idle on hf =>
    exact h.of_block_idle (h.up on) ((Block.switch _ _).append (.handshake j)) rfl rfl on (h.primitiveFlag hf) id idle
  | awaiting f j _ idle on hf =>
    exact h.of_block (h.up on) ((Block.switch _ _).append (.wait j)) rfl rfl on (h.primitiveFlag hf) id (fun _ => rfl) nofun
  | activated idle => exact h.returned idle (.inl rfl) .nothing
  | driven idle =>
    exact State.legal_of_up rfl (Pins.up_driveLines s.pins) (.inl rfl) nofun (absurd idle) fun _ _ k => nomatch idle.symm.trans k
  | released idle =>
    exact ⟨.inl rfl, nofun, rfl, nofun, nofun, fun _ => ⟨rfl, rfl, rfl, rfl⟩, absurd idle, fun _ _ k => nomatch idle.symm.trans k⟩
  | entered idle on =>
    exact State.legal_of_up on (h.up on).entry.1 (.inl rfl) (fun _ => rfl) (absurd idle) fun _ _ k => nomatch idle.symm.trans k
  | gotError idle => exact h.returned idle h.flag _
  | transacted _ frame n fin r j bytes _ _ _ on =>
    exact h.of_block_idle (h.up on) (.transaction _ frame j bytes) (State.concluded_pins _ _ _) (State.concluded_direction _ _ _)
      ((State.concluded_active _ _ _).trans on) (.inl (State.concluded_errorFlag _ _ _)) State.inSession_of_concluded
      (State.concluded_inFlight _ _ _)
  | transacting _ frame n fin r j _ is _ on ses =>
    obtain ⟨-, -, reads⟩ := transactionOf_frame i frame n fin r is
    refine h.of_block (h.up on) (.transactionWait _ frame j) rfl rfl on (.inl rfl) id (fun _ => rfl) fun n' fin' k => ?_
    cases k
    exact ⟨ses, rfl, reads⟩

/-- Every turn of a wait keeps the invariant. -/
theorem State.Legal.resume {s : State} {k : InFlight} (h : s.Legal) (hk : s.inFlight = some k) : (s.resume k).Legal := by
  obtain ⟨on, dir⟩ := h.waiting (by simp [hk])
  have up := dir ▸ h.up on
  obtain ⟨t, busy | ⟨rfl, ready⟩ | ⟨n, fin, bytes, rfl, -, ready⟩⟩ := State.resume_outcomes s k dir
  · rw [busy]
    exact h.of_block up .busyTurn rfl (by simpa using dir) (by simpa using on) (by simpa using h.flag) (by simp)
      (fun _ => by simpa using dir) fun n fin k' => by simpa using h.transacting n fin (hk.trans k')
  · rw [ready]
    exact h.of_block_idle up .ready rfl (by simpa using dir) (by simpa using on) (by simpa using h.flag) (by simp) rfl
  · rw [ready]
    exact h.of_block_idle up (.transactionEnd bytes) (State.concluded_pins _ _ _) (State.concluded_direction _ _ _)
      ((State.concluded_active _ _ _).trans on) (by simpa using h.flag) State.inSession_of_concluded
      (State.concluded_inFlight _ _ _)

/-! ### The discipline of the pin events -/

/-- From `s` to `t` the engine emits events that are allowed where they stand and set every output they make (R26, R30). -/
def State.EmitsDisciplined (s t : State) : Prop :=
  ∃ es, t.trace = s.trace ++ es ∧ t.pins = pinsAfter s.pins es ∧ disciplined s.pins es = true ∧ outputsSet es = true

theorem State.emitsDisciplined_nothing {s t : State} (trace : t.trace = s.trace) (pins : t.pins = s.pins) :
    s.EmitsDisciplined t :=
  ⟨[], by simpa using trace, pins, rfl, rfl⟩

theorem State.emitsDisciplined_block {s t : State} {d d' : Direction} {es : List Event} (up : s.pins.Up d) (b : Block d es d')
    (trace : t.trace = s.trace ++ es) (pins : t.pins = pinsAfter s.pins es) : s.EmitsDisciplined t :=
  ⟨es, trace, pins, (b.up _ up).2.2, b.set⟩

/-- What a host call emits in a legal state is disciplined. -/
theorem State.Legal.effect_emitsDisciplined {s t : State} {i : Instr} (h : s.Legal) (e : Effect s i t) :
    s.EmitsDisciplined t := by
  cases e with
  | refused | inactive | outOfSession | activated | gotError => exact State.emitsDisciplined_nothing rfl rfl
  | setDirection d f _ on => exact State.emitsDisciplined_block (h.up on) (.switch _ d) rfl rfl
  | writeByte v f _ on => exact State.emitsDisciplined_block (h.up on) ((Block.switch _ _).append (.writeByte v)) rfl rfl
  | readByte f v _ _ on => exact State.emitsDisciplined_block (h.up on) ((Block.switch _ _).append (.readByte v)) rfl rfl
  | awaited f j _ _ on => exact State.emitsDisciplined_block (h.up on) ((Block.switch _ _).append (.handshake j)) rfl rfl
  | awaiting f j _ _ on => exact State.emitsDisciplined_block (h.up on) ((Block.switch _ _).append (.wait j)) rfl rfl
  | driven => exact ⟨Trace.driveLines, rfl, rfl, Pins.disciplined_driveLines _, rfl⟩
  | released => exact ⟨Trace.releaseLines, rfl, rfl, Pins.disciplined_releaseLines _, rfl⟩
  | entered _ on => exact ⟨entry, rfl, rfl, (h.up on).entry.2, rfl⟩
  | transacted _ frame n fin r j bytes _ _ _ on =>
    exact State.emitsDisciplined_block (h.up on) (.transaction _ frame j bytes) (State.concluded_trace _ _ _)
      (State.concluded_pins _ _ _)
  | transacting _ frame n fin r j _ _ _ on =>
    exact State.emitsDisciplined_block (h.up on) (.transactionWait _ frame j) rfl rfl

/-- What a turn of a wait emits in a legal state is disciplined. -/
theorem State.Legal.resume_emitsDisciplined {s : State} {k : InFlight} (h : s.Legal) (hk : s.inFlight = some k) :
    s.EmitsDisciplined (s.resume k) := by
  obtain ⟨on, dir⟩ := h.waiting (by simp [hk])
  have up := dir ▸ h.up on
  obtain ⟨t, busy | ⟨-, ready⟩ | ⟨n, fin, bytes, -, -, ready⟩⟩ := State.resume_outcomes s k dir
  · rw [busy]
    exact State.emitsDisciplined_block up .busyTurn rfl rfl
  · rw [ready]
    exact State.emitsDisciplined_block up .ready rfl rfl
  · rw [ready]
    exact State.emitsDisciplined_block up (.transactionEnd bytes) (State.concluded_trace _ _ _) (State.concluded_pins _ _ _)

end Sys2Proof.Machine

namespace Sys2Proof.Claims

open Sys2Proof.Machine

/-- Settles O1: each value is read off the reset state. -/
theorem resetLeavesTheTableOfValues : Obligations.ResetLeavesTheTableOfValues :=
  ⟨rfl, rfl, rfl, rfl, rfl, rfl, rfl, rfl, rfl⟩

/-- Settles O3: construction leaves the lines as a change to active does. -/
theorem resetMeetsTheInvariant : Obligations.ResetMeetsTheInvariant := State.reset_legal

/-- Settles O5, over the effects of a call. -/
theorem hostCallKeepsTheInvariant : Obligations.HostCallKeepsTheInvariant :=
  fun _ _ _ h hexec => h.effect (effect_of_exec hexec)

/-- Settles O4: a step is a turn of a wait, a call, or nothing, and each keeps the invariant. -/
theorem stepKeepsTheInvariant : Obligations.StepKeepsTheInvariant := by
  intro s t h hstep
  rcases step_cases hstep with ⟨k, hk, rfl⟩ | ⟨-, -, rfl⟩ | ⟨i, rest, -, -, hexec⟩
  · exact h.resume hk
  · exact h
  · exact hostCallKeepsTheInvariant i _ t (h.withCalls rest) hexec

/-- Settles O6: a step is a turn of a wait, a call, or nothing, and what each emits is disciplined. -/
theorem stepEmitsDisciplinedEvents : Obligations.StepEmitsDisciplinedEvents := by
  intro s t h hstep
  rcases step_cases hstep with ⟨k, hk, rfl⟩ | ⟨-, -, rfl⟩ | ⟨i, rest, -, -, hexec⟩
  · exact h.resume_emitsDisciplined hk
  · exact State.emitsDisciplined_nothing rfl rfl
  · exact (h.withCalls rest).effect_emitsDisciplined (effect_of_exec hexec)

/-- Settles O7: the effect of each event on the pins is its definition's. -/
theorem pinEventsConfigureTheirLine : Obligations.PinEventsConfigureTheirLine :=
  fun _ _ _ _ _ _ => ⟨rfl, rfl, rfl, rfl, rfl, rfl, rfl, rfl, rfl, rfl⟩

end Sys2Proof.Claims
end

section
/-! O51, O52: the mark `refused` and the trace are output (R20, R31). Both follow from one fact: running a call on a state with a mark
already set and earlier events already in the trace is running it without them and adding them after. -/

namespace Sys2Proof.Machine

/-! ### Operations that do not read their output -/

/-- The state of an engine that had marked `m` and emitted `pre` before. -/
def State.preceded (m : Bool) (pre : List Event) (s : State) : State :=
  { s with refused := s.refused || m, trace := pre ++ s.trace }

/-- An operation does not read the mark or the trace, never clears the mark and only adds to the trace. -/
def Blind (f : State → State) : Prop :=
  ∀ (m : Bool) (pre : List Event) (s : State), f (s.preceded m pre) = (f s).preceded m pre

theorem Blind.comp {f g : State → State} (hf : Blind f) (hg : Blind g) : Blind fun s => g (f s) := fun m pre s =>
  (congrArg g (hf m pre s)).trans (hg m pre (f s))

/-! ### Bodies -/

theorem State.preceded_emitAll (m : Bool) (pre : List Event) (s : State) (es : List Event) :
    (s.preceded m pre).emitAll es = (s.emitAll es).preceded m pre := by
  simp [State.emitAll_eq, State.preceded]

theorem Blind.done (r : Result) : Blind (·.done r) := fun _ _ _ => rfl

theorem Blind.refuse : Blind State.refuse := fun _ _ _ => rfl

theorem Blind.clearError : Blind clearError := fun _ _ _ => rfl

theorem Blind.clearErrorIf (clears : Bool) : Blind (clearErrorIf clears) := fun _ _ _ => by
  simp only [clearErrorIf_eq, State.preceded]

theorem Blind.switchDirection (d : Direction) : Blind (·.switchDirection d) := fun _ _ _ => by
  simp only [State.switchDirection_eq, State.preceded_emitAll]
  rfl

theorem Blind.writeBits (v : U8) : Blind (·.writeBits v) := fun _ _ _ => by
  simp only [State.writeBits_eq, State.preceded_emitAll]
  rfl

theorem Blind.writeFrame (frame : List U8) : Blind (State.writeFrame frame) := by
  intro m pre s
  induction frame generalizing s with
  | nil => rfl
  | cons b frame ih => simp only [State.writeFrame, Blind.writeBits b m pre s, ih]

/-- A byte read is the same, and so is what reading it does. -/
theorem State.preceded_readBits (m : Bool) (pre : List Event) (s : State) :
    (s.preceded m pre).readBits = (s.readBits.1, s.readBits.2.preceded m pre) := by
  simp only [State.readBits_eq, State.preceded_emitAll]
  rfl

theorem State.preceded_readResult (m : Bool) (pre : List Event) (n : Nat) (s : State) :
    State.readResult n (s.preceded m pre) = ((State.readResult n s).1, (State.readResult n s).2.preceded m pre) := by
  induction n generalizing s with
  | zero => rfl
  | succ n ih => simp only [State.readResult, State.preceded_readBits, ih]

theorem Blind.conclude (bytes : List U8) (fin : Finish) : Blind (·.conclude bytes fin) := fun _ _ _ => by
  cases fin <;> rfl

theorem Blind.afterReady (k : InFlight) : Blind (·.afterReady k) := by
  intro m pre s
  cases k with
  | handshake => rfl
  | transaction n fin =>
    simp only [State.afterReady, State.preceded_readResult, Blind.switchDirection .drive m pre _, Blind.conclude _ fin m pre _]

/-- The wait depends on the target alone. -/
theorem Blind.poll (k : InFlight) (n : Nat) : Blind (State.poll k n) := by
  intro m pre s
  induction n generalizing s with
  | zero => rfl
  | succ n ih =>
    have turn : ∀ es, { (s.preceded m pre).emitAll es with target := (s.preceded m pre).target.next.2 } =
        State.preceded m pre { s.emitAll es with target := s.target.next.2 } := fun es => by
      simp [State.emitAll_eq, State.preceded]
    cases hb : s.target.next.1 with
    | true => rw [State.poll_busy k n s hb, State.poll_busy k n (s.preceded m pre) hb, turn, ih]
    | false =>
      rw [State.poll_ready k n s hb, State.poll_ready k n (s.preceded m pre) hb, turn]
      exact Blind.afterReady k m pre _

theorem Blind.await (k : InFlight) : Blind (·.await k) := by
  intro m pre s
  have start : ∀ es, { (s.preceded m pre).emitAll es with direction := .sample, target := s.target.cuePoll } =
      State.preceded m pre { s.emitAll es with direction := .sample, target := s.target.cuePoll } := fun es => by
    simp [State.emitAll_eq, State.preceded]
  simp only [State.await_eq]
  exact (congrArg _ (start _)).trans (Blind.poll k _ m pre _)

/-! ### Calls -/

theorem Blind.primitiveCall (clears : Bool) (rej : Result) {body : State → State} (hb : Blind body) :
    Blind (primitiveCall clears rej body) := by
  intro m pre s
  have check : activeCheck (s.preceded m pre) = activeCheck s := rfl
  simp only [Machine.primitiveCall, check]
  cases activeCheck s with
  | some code => rfl
  | none => simp only [Blind.clearErrorIf clears m pre s, hb m pre _]

theorem Blind.sessionPrimitiveCall (clears : Bool) (rej : Result) {body : State → State} (hb : Blind body) :
    Blind (sessionPrimitiveCall clears rej body) := by
  intro m pre s
  have check : sessionCheck (s.preceded m pre) = sessionCheck s := rfl
  simp only [Machine.sessionPrimitiveCall, check]
  cases sessionCheck s with
  | some code => rfl
  | none => simp only [Blind.clearErrorIf clears m pre s, hb m pre _]

theorem Blind.transact (frame : List U8) (n : Nat) (fin : Finish) (rej : Result) : Blind (transact frame n fin rej) := by
  intro m pre s
  have check : sessionCheck (s.preceded m pre) = sessionCheck s := rfl
  simp only [Machine.transact, check]
  cases sessionCheck s with
  | some code => rfl
  | none => simp only [Blind.clearError m pre _, Blind.writeFrame frame m pre _, Blind.await _ m pre _]

theorem Blind.setDirectionCall (clears : Bool) (d : Direction) : Blind (setDirectionCall clears d) :=
  .primitiveCall clears .nothing ((Blind.switchDirection d).comp (.done .nothing))

theorem Blind.writeByteCall (clears : Bool) (v : U8) : Blind (writeByteCall clears v) :=
  .sessionPrimitiveCall clears .nothing ((Blind.writeBits v).comp (.done .nothing))

theorem Blind.readByteCall (clears : Bool) : Blind (readByteCall clears) :=
  .primitiveCall clears (.byte 0) fun m pre s => by
    simp only [State.preceded_readBits, Blind.done _ m pre _]

theorem Blind.awaitReadableCall (clears : Bool) : Blind (awaitReadableCall clears) :=
  .primitiveCall clears .nothing (.await .handshake)

theorem Blind.driveLines : Blind State.driveLines := fun m pre s => by
  simp [State.driveLines, State.pinMode, State.pinSet, State.emit, State.preceded]

theorem Blind.releaseLines : Blind State.releaseLines := fun m pre s => by
  simp [State.releaseLines, State.pinMode, State.emit, State.preceded]

theorem Blind.entrySequence : Blind State.entrySequence := fun m pre s => State.preceded_emitAll m pre s Trace.entry

theorem Blind.activateCall (on : Bool) : Blind (activateCall on) := by
  intro m pre s
  have active : (s.preceded m pre).active = s.active := rfl
  simp only [Machine.activateCall, active, Blind.clearError m pre _, Blind.driveLines m pre _, Blind.releaseLines m pre _,
    Blind.done _ m pre _]
  split
  · rfl
  · split <;> rfl

theorem Blind.enterCall : Blind enterCall := by
  intro m pre s
  have check : activeCheck (s.preceded m pre) = activeCheck s := rfl
  have inSession : (s.preceded m pre).inSession = s.inSession := rfl
  have opened : Blind fun s => { s with inSession := true } := fun _ _ _ => rfl
  simp only [Machine.enterCall, check, inSession]
  cases activeCheck s with
  | some code => rfl
  | none =>
    cases s.inSession with
    | true => rfl
    | false => exact (((Blind.clearError.comp .entrySequence).comp opened).comp (.done (.byte 0))) m pre s

theorem Blind.getErrorCall : Blind getErrorCall := fun _ _ _ => rfl

/-- Every host call is, on an idle engine, an operation that does not read its output. -/
theorem exec_eq_hostCall_blind (i : Instr) : ∃ body, Blind body ∧ ∀ s, exec i s = hostCall body s := by
  cases hx : transactionOf i with
  | some x =>
    obtain ⟨frame, n, fin, rej⟩ := x
    exact ⟨_, .transact frame n fin rej, fun s => exec_transaction i _ _ _ _ s hx⟩
  | none =>
    cases i with
    | setDirection d => exact ⟨_, .setDirectionCall _ d, fun _ => rfl⟩
    | writeByte v => exact ⟨_, .writeByteCall _ v, fun _ => rfl⟩
    | readByte => exact ⟨_, .readByteCall _, fun _ => rfl⟩
    | awaitReadable => exact ⟨_, .awaitReadableCall _, fun _ => rfl⟩
    | activate on => exact ⟨_, .activateCall on, fun _ => rfl⟩
    | enter => exact ⟨_, .enterCall, fun _ => rfl⟩
    | getError => exact ⟨_, .getErrorCall, fun _ => rfl⟩
    | exec ocs =>
      have noFrame : execFrame ocs = none := by simpa [transactionOf] using hx
      exact ⟨_, .refuse, fun s => by simp only [exec, execExec, hostCall, execCall, noFrame]⟩
    | _ => simp [transactionOf] at hx

theorem hostCall_preceded {body : State → State} (hb : Blind body) {s t : State} (h : hostCall body s = .next t) (m : Bool)
    (pre : List Event) : hostCall body (s.preceded m pre) = .next (t.preceded m pre) := by
  rcases hostCall_cases body s with ⟨idle, he⟩ | ⟨busy, he⟩ <;> cases he.symm.trans h
  · exact (hostCall_idle body (s.preceded m pre) idle).trans (congrArg _ (hb m pre s))
  · exact hostCall_busy body (s.preceded m pre) busy

/-- A host call on an engine with an earlier mark and earlier events does what it does without them (R20, R31). -/
theorem exec_preceded {i : Instr} {s t : State} (h : exec i s = .next t) (m : Bool) (pre : List Event) :
    exec i (s.preceded m pre) = .next (t.preceded m pre) := by
  obtain ⟨body, hb, he⟩ := exec_eq_hostCall_blind i
  rw [he] at h ⊢
  exact hostCall_preceded hb h m pre

/-! ### The mark and the trace in terms of what preceded -/

theorem State.preceded_mark (s : State) : s.preceded true [] = { s with refused := true } := by
  simp [State.preceded]

theorem State.preceded_trace (s : State) (tr : List Event) :
    State.preceded false tr { s with trace := [] } = { s with trace := tr } := by
  simp [State.preceded]

end Sys2Proof.Machine

namespace Sys2Proof.Claims

open Sys2Proof.Machine

/-- Settles O51: a marked state is one preceded by a mark. -/
theorem refusedMarkStaysAndIsNotRead : Obligations.RefusedMarkStaysAndIsNotRead := by
  have unread : ∀ (i : Instr) (s t : State), exec i s = .next t →
      exec i { s with refused := true } = .next { t with refused := true } := by
    intro i s t h
    simpa only [State.preceded_mark] using exec_preceded h true []
  refine ⟨fun i s t h marked => ?_, unread⟩
  have same : { s with refused := true } = s := by rw [← marked]
  have again := unread i s t h
  rw [same, h] at again
  injection again with again
  rw [again]

/-- Settles O52: the events of the call are those it emits on the same state with an empty trace. -/
theorem traceIsNotRead : Obligations.TraceIsNotRead := by
  intro i s t h
  obtain ⟨u, hu, -⟩ := exec_effect i { s with trace := [] }
  have onto : ∀ tr, exec i { s with trace := tr } = .next (u.preceded false tr) := by
    intro tr
    rw [← State.preceded_trace]
    exact exec_preceded hu false tr
  have ht : t = u.preceded false s.trace := by
    have := h.symm.trans (onto s.trace)
    injection this
  subst ht
  exact ⟨u.trace, rfl, onto⟩

end Sys2Proof.Claims
end

section
/-! O53, O54: which calls write the mode flags and the reset line (R21, R22, R28). Only `exit`'s transaction leaves the session, and
no event of a Bit-Transfer body or of a transaction touches RST. -/

namespace Sys2Proof.Machine

open Sys2Proof.Trace

/-- A transaction that leaves the session is `exit`'s (R133). -/
theorem eq_exit_of_leaveSession {i : Instr} {frame : List U8} {n : Nat} {r : Result}
    (h : transactionOf i = some (frame, n, .leaveSession, r)) : i = .exit := by
  cases i with
  | exit => rfl
  | exec ocs => cases hf : execFrame ocs <;> simp [transactionOf, hf] at h
  | _ => simp [transactionOf] at h

/-! ### Traces that spare the reset line -/

/-- An event that configures another line, or none. -/
@[simp] def sparesRst : Event → Bool
  | .pinMode .rst _ | .pinSet .rst _ => false
  | _ => true

theorem Pins.apply_rst {e : Event} (h : sparesRst e = true) (ps : Pins) : (ps.apply e).rst = ps.rst := by
  cases e with
  | pinMode p _ | pinSet p _ =>
    cases p with
    | rst => exact nomatch h
    | dc | ddo | ddi => rfl
  | pinSample | hold => rfl

/-- Events that spare RST leave it as it was. -/
theorem pinsAfter_rst {es : List Event} (h : es.all sparesRst = true) (ps : Pins) : (pinsAfter ps es).rst = ps.rst := by
  induction es generalizing ps with
  | nil => rfl
  | cons e es ih =>
    obtain ⟨he, hes⟩ := (Bool.and_eq_true _ _).mp h
    exact (ih hes (ps.apply e)).trans (Pins.apply_rst he ps)

@[simp] theorem all_sparesRst_switch (d d' : Direction) : (Trace.switch d d').all sparesRst = true := by
  cases d <;> cases d' <;> rfl

@[simp] theorem all_sparesRst_WB (v : U8) : (WB v).all sparesRst = true := rfl

@[simp] theorem all_sparesRst_RB (v : U8) : (RB v).all sparesRst = true := rfl

@[simp] theorem all_sparesRst_SMP : SMP.all sparesRst = true := rfl

@[simp] theorem all_sparesRst_DRV : DRV.all sparesRst = true := rfl

@[simp] theorem all_sparesRst_P8 : P8.all sparesRst = true := rfl

@[simp] theorem all_sparesRst_busy (k : Nat) : (busy k).all sparesRst = true := by
  induction k with
  | zero => rfl
  | succ k ih => simp [busy, ih]

@[simp] theorem all_sparesRst_handshake (k : Nat) : (handshake k).all sparesRst = true := by
  simp [handshake]

@[simp] theorem all_sparesRst_transaction (d : Direction) (frame : List U8) (k : Nat) (bytes : List U8) :
    (transaction d frame k bytes).all sparesRst = true := by
  simp [transaction]

/-- A call whose events spare RST writes neither its mode nor its level. -/
theorem rst_frame {s t : State} {es : List Event} (pins : t.pins = pinsAfter s.pins es) (spares : es.all sparesRst = true)
    {unlessEnter : Prop} :
    t.pins.rst.mode = s.pins.rst.mode ∧ (unlessEnter → t.pins.rst.level = s.pins.rst.level) := by
  rw [pins, pinsAfter_rst spares]
  exact ⟨rfl, fun _ => rfl⟩

end Sys2Proof.Machine

namespace Sys2Proof.Claims

open Sys2Proof.Machine

/-- Settles O53, over the effects of a call. -/
theorem modeFlagsWrittenOnlyBySessionCalls : Obligations.ModeFlagsWrittenOnlyBySessionCalls := by
  intro i s t h notActivate
  cases effect_of_exec h with
  | activated | driven | released => exact absurd rfl (notActivate _)
  | entered => exact ⟨rfl, fun notEnter => absurd rfl notEnter⟩
  | transacted _ frame n fin r j bytes t is =>
    refine ⟨State.concluded_active _ _ _, fun _ notExit => ?_⟩
    have stays : fin ≠ .leaveSession := by
      rintro rfl
      exact notExit (eq_exit_of_leaveSession is)
    rw [State.concluded_inSession, if_neg stays]
    rfl
  | refused | inactive | outOfSession | setDirection | writeByte | readByte | awaited | awaiting | gotError | transacting =>
    exact ⟨rfl, fun _ _ => rfl⟩

/-- Settles O54, over the effects of a call. -/
theorem resetLineWrittenOnlyByActivateAndEnter : Obligations.ResetLineWrittenOnlyByActivateAndEnter := by
  intro i s t h notActivate
  cases effect_of_exec h with
  | activated | driven | released => exact absurd rfl (notActivate _)
  | entered => exact ⟨rfl, fun notEnter => absurd rfl notEnter⟩
  | refused | inactive | outOfSession | gotError => exact ⟨rfl, fun _ => rfl⟩
  | setDirection => exact rst_frame rfl (all_sparesRst_switch _ _)
  | writeByte | readByte | awaited | awaiting => exact rst_frame rfl (by simp)
  | transacted => exact rst_frame (State.concluded_pins _ _ _) (all_sparesRst_transaction _ _ _ _)
  | transacting => exact rst_frame rfl (by simp)

end Sys2Proof.Claims
end

section
/-! O55, O56, O60: the bytes a call writes and reads. What a call leaves of the record of written bytes, of the host's script and of
the target is read off its effects; a two-byte result is the word of the bytes a served transaction read (R51, R53, R58). -/

namespace Sys2Proof.Machine

open Sys2Proof.Claims

/-- An operation that runs a transaction is one of those with a frame of the table (R72, R80). -/
theorem isTransaction_of_transactionOf {i : Instr} {frame : List U8} {n : Nat} {fin : Finish} {r : Result}
    (h : transactionOf i = some (frame, n, fin, r)) : isTransaction i = true := by
  cases i with
  | exec ocs =>
    match ocs, h with
    | [_], _ | [_, _], _ | [_, _, _], _ => rfl
  | setDirection | writeByte | readByte | awaitReadable | activate | enter | getError => exact nomatch h
  | _ => rfl

/-- The value of a two-byte result: its first byte counts 256 times (R53). -/
theorem assemble16_toNat (b0 b1 : U8) : (assemble16 b0 b1).toNat = 256 * b0.toNat + b1.toNat := by
  have h0 : b0.toNat < 2 ^ 8 := b0.isLt
  have h1 : b1.toNat < 2 ^ 8 := b1.isLt
  calc (assemble16 b0 b1).toNat
      = 2 ^ 8 * b0.toNat ||| b1.toNat := by
        simp (disch := omega) [assemble16, Nat.shiftLeft_eq, Nat.mod_eq_of_lt, Nat.mul_comm]
    _ = 256 * b0.toNat + b1.toNat := (Nat.two_pow_add_eq_or_of_lt h1 b0.toNat).symm

/-- A call on an idle engine in session that is a transaction of two bytes returns the word of the bytes its target serves
(R160, R167, R168). -/
theorem exec_word16_result {i : Instr} {frame : List U8} {r : Result} {s : State} {k : Nat} {b0 b1 : U8} {t : Target}
    (is : transactionOf i = some (frame, 2, .word16, r)) (idle : s.Idle) (on : s.active = true) (ses : s.inSession = true)
    (serves : s.target.Serves k [b0, b1] t) : ∃ u, exec i s = .next u ∧ u.result = .word (assemble16 b0 b1) := by
  obtain ⟨-, nonempty, -⟩ := transactionOf_frame i _ _ _ _ is
  obtain ⟨b, frame, rfl⟩ := List.exists_cons_of_ne_nil nonempty
  refine ⟨_, (exec_transaction i _ _ _ _ s is).trans (hostCall_idle _ s idle), ?_⟩
  rw [transact_serves b frame 2 .word16 r s k [b0, b1] t on ses rfl serves]
  rfl

end Sys2Proof.Machine

namespace Sys2Proof.Claims

open Sys2Proof.Machine

/-- Settles O55, over the effects of a call: only `writeByte` and a transaction add to the record, each its own frame. -/
theorem callsWriteOnlyTheirFrame : Obligations.CallsWriteOnlyTheirFrame := by
  intro i s t h
  cases effect_of_exec h with
  | writeByte => exact ⟨.inr rfl, rfl⟩
  | transacted _ frame n fin r j bytes t is =>
    obtain ⟨rfl, -, -⟩ := transactionOf_frame i _ _ _ _ is
    exact ⟨.inr (State.concluded_written _ _ _), State.concluded_calls _ _ _⟩
  | transacting _ frame n fin r j t is =>
    obtain ⟨rfl, -, -⟩ := transactionOf_frame i _ _ _ _ is
    exact ⟨.inr rfl, rfl⟩
  | refused | inactive | outOfSession | setDirection | readByte | awaited | awaiting | activated | driven | released | entered
  | gotError => exact ⟨.inl rfl, rfl⟩

/-- Settles O56, over the effects of a call: only `readByte`, `awaitReadable` and a transaction sample DD_I. -/
theorem callsWithoutSamplesLeaveTheTarget : Obligations.CallsWithoutSamplesLeaveTheTarget := by
  intro i s t h notTransaction notRead notAwait
  cases effect_of_exec h with
  | readByte => exact absurd rfl notRead
  | awaited | awaiting => exact absurd rfl notAwait
  | transacted _ _ _ _ _ _ _ _ is | transacting _ _ _ _ _ _ _ is =>
    exact absurd (isTransaction_of_transactionOf is) (by simp [notTransaction])
  | refused | inactive | outOfSession | setDirection | writeByte | activated | driven | released | entered | gotError => rfl

/-- Settles O60: both operations are transactions of two bytes, and the word they return has the value R53 states. -/
theorem twoByteResultsAreBigEndian : Obligations.TwoByteResultsAreBigEndian := by
  intro i s k b0 b1 t hi idle on ses serves
  obtain ⟨frame, is⟩ : ∃ frame, transactionOf i = some (frame, 2, .word16, .word 0) := by
    rcases hi with rfl | rfl <;> exact ⟨_, rfl⟩
  obtain ⟨u, hu, result⟩ := exec_word16_result is idle on ses serves
  exact ⟨u, _, hu, result, assemble16_toNat b0 b1⟩

end Sys2Proof.Claims
end

section
/-! O14 to O17, O44: the wire (R72 to R81). The frames written and the frames read are one table: what an operation sends reads as what
`Instr.onWire` says, and the reader takes nothing else for a frame. -/

namespace Sys2Proof

open Sys2Proof.Claims

/-! ### The reader of the wire -/

/-- R70, R80: an operation a reader of the wire can see is well formed. -/
theorem Instr.wellFormed_of_onWire {i j : Instr} (h : i.onWire = some j) : i.wellFormed = true := by
  cases i with
  | exec ocs =>
    match ocs, h with
    | [_], _ | [_, _], _ | [_, _, _], _ => rfl
  | _ => rfl

/-- R72, R76: the reader undoes the encoder; of the spellings of one frame it gives the one `onWire` names. -/
theorem decode_encode_append {i j : Instr} (h : i.onWire = some j) (rest : List U8) :
    decode (encode i ++ rest) = .ok (j, rest) := by
  cases i with
  | exec ocs =>
    match ocs, h with
    | [_], rfl | [_, _], rfl | [_, _, _], rfl => rfl
  | setDirection | writeByte | readByte | awaitReadable | activate | enter | getError | massErase => exact nomatch h
  | _ => cases h; rfl

/-- What the reader can give: an operation that reads as itself, taken from its own frame. -/
theorem decode_inversion {bytes rest : List U8} {i : Instr} (h : decode bytes = .ok (i, rest)) :
    bytes = encode i ++ rest ∧ i.onWire = some i := by
  revert h
  fun_cases decode bytes <;> rintro ⟨⟩
  -- the rejecting branches are gone: ten frames are left
  all_goals exact ⟨rfl, rfl⟩

/-- R78, R81: a byte outside the table begins no frame. -/
theorem decode_notAFramingByte {f : U8} (h : f ∉ framingBytes) (rest : List U8) :
    decode (f :: rest) = .error (.notAFramingByte f) := by
  simp only [framingBytes, List.mem_cons, List.not_mem_nil, or_false, not_or] at h
  simp only [decode, h, if_false]

/-- R73: no frame is longer than four bytes, so three bytes after a framing byte complete its frame. -/
theorem decode_framingByte {f : U8} (h : f ∈ framingBytes) (a b c : U8) (r : List U8) :
    ∃ i rest, decode (f :: a :: b :: c :: r) = .ok (i, rest) := by
  simp only [framingBytes, List.mem_cons, List.not_mem_nil, or_false] at h
  rcases h with rfl | rfl | rfl | rfl | rfl | rfl | rfl | rfl | rfl | rfl <;> exact ⟨_, _, rfl⟩

end Sys2Proof

namespace Sys2Proof.Machine

/-! ### The operand bytes of a word -/

/-- R54, R74: the high byte of a word is the word shifted down by eight bits. -/
theorem hiByte_eq_truncate (c : U16) : hiByte c = (c >>> 8).truncate 8 :=
  BitVec.setWidth_ushiftRight_eq_extractLsb.symm

/-- R54, R74: the low byte of a word is the word cut to eight bits. -/
theorem loByte_eq_truncate (c : U16) : loByte c = c.truncate 8 :=
  (BitVec.setWidth_eq_extractLsb' (by decide)).symm

end Sys2Proof.Machine

namespace Sys2Proof.Claims

open Sys2Proof.Machine

/-- Settles O14: the reader undoes the encoder, operation by operation. -/
theorem readingAFrameGivesItsOperation : Obligations.ReadingAFrameGivesItsOperation :=
  fun _ _ rest h => decode_encode_append h rest

/-- Settles O15, over the branches of the reader. -/
theorem aReadFrameIsTheOperationsFrame : Obligations.AReadFrameIsTheOperationsFrame := by
  intro bytes rest i h
  obtain ⟨frame, wire⟩ := decode_inversion h
  exact ⟨frame, Instr.wellFormed_of_onWire wire, wire⟩

/-- Settles O16: every framing byte's frame fits in four bytes, and the reader compares the first byte with the ten framing bytes. -/
theorem onlyTheTenFramingBytesBeginAFrame : Obligations.OnlyTheTenFramingBytesBeginAFrame := by
  refine fun f rest => ⟨fun h => decode_notAFramingByte h rest, fun h enough => ?_⟩
  match rest, enough with
  | a :: b :: c :: r, _ => exact decode_framingByte h a b c r

/-- Settles O17: each word is the frame of its operation, and the table word is that of `step` with zero bytes above. -/
theorem framesWrittenOutDecode : Obligations.FramesWrittenOutDecode :=
  ⟨decode_encode_append (i := .exit) rfl [], decode_encode_append (i := .writeConfig 0x3C) rfl [],
    decode_encode_append (i := .exec3 0x90 0x12 0x34) rfl [], decode_encode_append (i := .getChipId) rfl [], rfl⟩

/-- Settles O44: `execImm16` runs the transaction of `exec3` on its two bytes, and `exec` that of the operation of its length. -/
theorem spellingsOfOneWireInstruction : Obligations.SpellingsOfOneWireInstruction := by
  refine ⟨fun oc0 c0 s => ?_, fun _ _ => rfl, fun _ _ _ => rfl, fun _ _ _ _ => rfl⟩
  rw [← hiByte_eq_truncate, ← loByte_eq_truncate]
  rfl

end Sys2Proof.Claims
end

section
/-! O19 to O25: the Bit-Transfer Layer (R101 to R107). The direct call of each primitive on an idle engine is settled once, by its whole
next state; the obligations put the current direction, the target's answers or the lengths of R14's blocks into these states. -/

namespace Sys2Proof.Machine

open Sys2Proof.Trace Sys2Proof.Claims

/-! ### Direct calls on an idle engine -/

/-- A rejected call of an idle engine writes the flag and the result (R201, R204). -/
theorem State.reject_idle {s : State} (idle : s.Idle) (code : U8) (r : Result) :
    s.reject code r = { s with errorFlag := code, result := r } :=
  State.done_eq_withResult (s := { s with errorFlag := code }) idle r

section

variable {s : State} (idle : s.Idle)

include idle

theorem hostCall_primitiveCall_inactive (off : s.active = false) (clears : Bool) (rej : Result) (body : State → State) :
    hostCall (primitiveCall clears rej body) s = .next { s with errorFlag := 1#8, result := rej } := by
  rw [hostCall_idle _ _ idle, primitiveCall_inactive _ _ _ _ off, State.reject_idle idle, errInactive]

theorem hostCall_primitiveCall_active (on : s.active = true) (rej : Result) (body : State → State) :
    hostCall (primitiveCall Config.primClearsError rej body) s = .next (body { s with errorFlag := primitiveFlag s }) := by
  rw [hostCall_idle _ _ idle, primitiveCall_active _ _ _ _ on, clearErrorIf_eq, primitiveFlag]

theorem exec_writeByte_rejected {code : U8} (check : sessionCheck s = some code) (v : U8) :
    exec (.writeByte v) s = .next { s with errorFlag := code, result := .nothing } := by
  refine (hostCall_idle _ _ idle).trans (congrArg _ ?_)
  simp only [writeByteCall, sessionPrimitiveCall, check, State.reject_idle idle]

/-- R101, accepted. -/
theorem exec_setDirection_active (on : s.active = true) (d : Direction) :
    exec (.setDirection d) s =
      .next { s.after (switch s.direction d) with direction := d, errorFlag := primitiveFlag s, result := .nothing } := by
  refine (hostCall_primitiveCall_active idle on _ _).trans (congrArg _ ?_)
  rw [State.switchDirection_eq, State.after_eq]
  exact State.done_eq_withResult (by exact idle) _

/-- R102, accepted. -/
theorem exec_writeByte_accepted (on : s.active = true) (ses : s.inSession = true) (v : U8) :
    exec (.writeByte v) s =
      .next
        { s.after (switch s.direction .drive ++ WB v) with
          direction := .drive, errorFlag := primitiveFlag s, result := .nothing, written := s.written ++ [v] } := by
  have check : sessionCheck s = none := by simp [sessionCheck, on, ses]
  refine (hostCall_idle _ _ idle).trans (congrArg _ ?_)
  simp only [writeByteCall, sessionPrimitiveCall, check, clearErrorIf_eq]
  rw [State.writeBits_eq, State.after_eq]
  exact State.done_eq_withResult (by exact idle) _

/-- R103, accepted: the byte and the target after it are those of one read step. -/
theorem exec_readByte_active (on : s.active = true) {v : U8} {t : Target} (reads : s.target.readStep s.written = (v, t)) :
    exec .readByte s =
      .next
        { s.after (switch s.direction .sample ++ RB v) with
          direction := .sample, errorFlag := primitiveFlag s, result := .byte v, target := t } := by
  refine (hostCall_primitiveCall_active idle on _ _).trans (congrArg _ ?_)
  simp only [State.readBits_eq, reads, State.after_eq]
  exact State.done_eq_withResult (by exact idle) _

/-- R104, accepted, with a target that lets the handshake end. -/
theorem exec_awaitReadable_serves (on : s.active = true) {k : Nat} {t : Target} (serves : s.target.Serves k [] t) :
    exec .awaitReadable s =
      .next
        { s.after (switch s.direction .sample ++ handshake k) with
          direction := .sample, errorFlag := primitiveFlag s, result := .nothing, target := t } := by
  refine (hostCall_primitiveCall_active idle on _ _).trans (congrArg _ ?_)
  obtain ⟨u, reads, waits⟩ := State.await_serves { s with errorFlag := primitiveFlag s } .handshake k [] t serves
  -- no byte is read after the handshake
  obtain rfl : u = t := (Prod.mk.inj (Target.readSteps_reads [] [] u t reads)).2
  rw [waits, State.afterReady_handshake, State.after_eq]
  exact State.done_eq_withResult (by exact idle) _

/-! ### What an accepted primitive adds to the trace -/

variable {t : State}

theorem setDirection_trace (on : s.active = true) {d : Direction} (h : exec (.setDirection d) s = .next t) :
    t.trace = s.trace ++ switch s.direction d := by
  rw [exec_setDirection_active idle on] at h
  cases h
  rfl

theorem writeByte_trace (on : s.active = true) (ses : s.inSession = true) {v : U8} (h : exec (.writeByte v) s = .next t) :
    t.trace = s.trace ++ (switch s.direction .drive ++ WB v) := by
  rw [exec_writeByte_accepted idle on ses] at h
  cases h
  rfl

theorem readByte_trace (on : s.active = true) (h : exec .readByte s = .next t) :
    ∃ v, t.trace = s.trace ++ (switch s.direction .sample ++ RB v) ∧ t.result = .byte v := by
  rw [exec_readByte_active idle on rfl] at h
  cases h
  exact ⟨_, rfl, rfl⟩

theorem awaitReadable_trace (on : s.active = true) {k : Nat} {u : Target} (serves : s.target.Serves k [] u)
    (h : exec .awaitReadable s = .next t) : t.trace = s.trace ++ (switch s.direction .sample ++ handshake k) := by
  rw [exec_awaitReadable_serves idle on serves] at h
  cases h
  rfl

end

/-! ### What the target settles of one read byte -/

/-- A target that has the byte `v` to give gives it (R103, R213). -/
theorem Target.readStep_of_reads (written : List U8) {v : U8} {t u : Target} (h : t.Reads [v] u) :
    t.readStep written = (v, u) := by
  obtain ⟨w, hw, hu⟩ := Target.readStep_reads written v [] t u h
  rw [hw, (Prod.mk.inj (Target.readSteps_reads written [] w u hu)).2]

/-- The adapter gives the next byte of its script, whatever answers were left before it (R213). -/
theorem Target.readStep_adapter (written : List U8) {v : U8} {script : List U8} {t : Target}
    (h : t.fixture = .adapter (v :: script)) :
    t.readStep written = (v, { t with fixture := .adapter script, answers := [] }) := by
  have fresh : t.readStep written = Target.readStep written { t with answers := [] } := by
    simp only [Target.readStep, Target.cueRead, h, Target.settle]
  rw [fresh]
  exact Target.readStep_of_reads written (.inr ⟨script, h, rfl, rfl⟩)

/-! ### Switches that emit nothing -/

@[simp] theorem switch_self (d : Direction) : Trace.switch d d = [] := by cases d <;> rfl

@[simp] theorem State.after_nil (s : State) : s.after [] = s := (State.after_eq s []).symm

/-- A `setDirection` that finds its direction, or is not accepted, emits nothing (R101, R105). -/
theorem setDirection_quiet {d : Direction} {s t : State} (h : exec (.setDirection d) s = .next t)
    (settled : ¬ (s.Idle ∧ s.active = true) ∨ s.direction = d) :
    t.trace = s.trace ∧ t.pins = s.pins ∧ t.direction = s.direction := by
  cases effect_of_exec h with
  | refused | inactive | outOfSession => exact ⟨rfl, rfl, rfl⟩
  | setDirection _ _ idle on =>
    obtain rfl := settled.resolve_left (not_not.mpr ⟨idle, on⟩)
    rw [switch_self, State.after_nil]
    exact ⟨rfl, rfl, rfl⟩
  | transacted _ _ _ _ _ _ _ _ is | transacting _ _ _ _ _ _ _ is => exact nomatch is

/-- After a `setDirection` a second one finds its direction, or is not accepted as the first was not. -/
theorem setDirection_settles {d : Direction} {s t : State} (h : exec (.setDirection d) s = .next t) :
    ¬ (t.Idle ∧ t.active = true) ∨ t.direction = d := by
  cases effect_of_exec h with
  | refused _ why =>
    refine .inl fun ⟨idle, _⟩ => ?_
    obtain busy | ⟨⟨⟩, -⟩ | ⟨_, ⟨⟩, -⟩ := why
    exact busy idle
  | inactive _ _ _ off => exact .inl fun ⟨_, on⟩ => Bool.false_ne_true (off.symm.trans on)
  | outOfSession _ _ _ _ _ needs => simp [transactionOf] at needs
  | setDirection => exact .inr rfl
  | transacted _ _ _ _ _ _ _ _ is | transacting _ _ _ _ _ _ _ is => exact nomatch is

/-- An `awaitReadable` accepted and returned leaves an active engine that samples (R104). -/
theorem awaitReadable_returned {s t : State} (idle : s.Idle) (on : s.active = true) (h : exec .awaitReadable s = .next t)
    (returned : t.Idle) : t.active = true ∧ t.direction = .sample := by
  cases effect_of_exec h with
  | refused _ why =>
    obtain busy | ⟨⟨⟩, -⟩ | ⟨_, ⟨⟩, -⟩ := why
    exact absurd idle busy
  | inactive _ _ _ off => exact absurd (off.symm.trans on) Bool.false_ne_true
  | outOfSession _ _ _ _ _ needs => simp [transactionOf] at needs
  | awaited => exact ⟨on, rfl⟩
  | awaiting => exact nomatch returned
  | transacted _ _ _ _ _ _ _ _ is | transacting _ _ _ _ _ _ _ is => exact nomatch is

/-! ### The lengths of R14's blocks -/

@[simp] theorem length_WB (v : U8) : (WB v).length = 40 := rfl

@[simp] theorem length_RB (v : U8) : (RB v).length = 40 := rfl

@[simp] theorem length_busy (k : Nat) : (busy k).length = 33 * k := by
  induction k with
  | zero => rfl
  | succ k ih =>
    rw [busy, List.length_cons, List.length_append, ih, show P8.length = 32 from rfl]
    omega

@[simp] theorem length_handshake (k : Nat) : (handshake k).length = 3 + 33 * k := by
  simp only [handshake, List.length_cons, List.length_append, length_busy, List.length_nil]
  omega

theorem length_switch_drive (d : Direction) : (Trace.switch d .drive).length = if d = .drive then 0 else 3 := by
  cases d <;> rfl

theorem length_switch_sample (d : Direction) : (Trace.switch d .sample).length = if d = .sample then 0 else 1 := by
  cases d <;> rfl

end Sys2Proof.Machine

namespace Sys2Proof.Claims

open Sys2Proof.Machine Sys2Proof.Trace

/-- Settles O20: the check of `sessionCheck` rejects the call, or its body runs. -/
theorem writeByteShiftsAByteOut : Obligations.WriteByteShiftsAByteOut := by
  refine fun v s idle => ⟨fun off => ?_, fun on out => ?_, fun on ses => exec_writeByte_accepted idle on ses v⟩
  · exact exec_writeByte_rejected idle (by simp [sessionCheck, off, errInactive]) v
  · exact exec_writeByte_rejected idle (by simp [sessionCheck, on, out, errNotInSession]) v

/-- Settles O21: the byte is the one a read step of the target spells. -/
theorem readByteReturnsWhatTheSamplesSpell : Obligations.ReadByteReturnsWhatTheSamplesSpell :=
  fun _ idle => ⟨fun off => hostCall_primitiveCall_inactive idle off _ _ _, fun on => ⟨_, _, exec_readByte_active idle on rfl⟩⟩

/-- Settles O22: both sources settle the read step. -/
theorem readByteReturnsTheTargetsByte : Obligations.ReadByteReturnsTheTargetsByte := by
  rintro s v t idle on (gives | ⟨script, adapter, rfl⟩)
  · exact exec_readByte_active idle on (Target.readStep_of_reads _ (.inl (by simpa using gives)))
  · exact exec_readByte_active idle on (Target.readStep_adapter _ adapter)

/-- Settles O23: the events between the switch and the return are one handshake. -/
theorem awaitReadableClocksABusyTarget : Obligations.AwaitReadableClocksABusyTarget := by
  refine fun s idle => ⟨fun off => hostCall_primitiveCall_inactive idle off _ _ _, fun on k t serves => ?_⟩
  simp only [List.append_assoc]
  exact exec_awaitReadable_serves idle on serves

/-- Settles O24: the first call leaves the direction the second one wants. -/
theorem repeatedDirectionsEmitNothing : Obligations.RepeatedDirectionsEmitNothing := by
  refine ⟨fun d s t u first second => setDirection_quiet second (setDirection_settles first), ?_, ?_⟩
  · intro v w s t u idle on ses first second
    rw [exec_writeByte_accepted idle on ses] at first
    cases first
    refine writeByte_trace ?_ ?_ ?_ second
    exacts [idle, on, ses]
  · intro s t u idle on first returned second
    obtain ⟨on', samples⟩ := awaitReadable_returned idle on first returned
    simpa only [samples, switch_self, List.nil_append] using readByte_trace returned on' second

/-- Settles O25: the lengths of the blocks each accepted primitive emits. -/
theorem primitiveEventCounts : Obligations.PrimitiveEventCounts := by
  intro s t idle on
  refine ⟨fun h => ?_, fun hd h => ?_, fun hd h => ?_, fun v ses h => ?_, fun h => ?_, fun k u serves h => ?_⟩
  · rw [setDirection_trace idle on h, switch_self, List.append_nil]
  · rw [setDirection_trace idle on h, hd, List.length_append]
    rfl
  · rw [setDirection_trace idle on h, hd, List.length_append]
    rfl
  · rw [writeByte_trace idle on ses h]
    simp only [List.length_append, length_switch_drive, length_WB]
    split <;> rfl
  · obtain ⟨v, trace, -⟩ := readByte_trace idle on h
    simp only [trace, List.length_append, length_switch_sample, length_RB]
    split <;> rfl
  · rw [awaitReadable_trace idle on serves h]
    simp only [List.length_append, length_switch_sample, length_handshake]
    split <;> omega

/-- Settles O19: the switch to the direction the line has is empty, the other two are the event lists of R101. -/
theorem setDirectionSwitchesTheLine : Obligations.SetDirectionSwitchesTheLine := by
  refine fun d s idle => ⟨fun off => hostCall_primitiveCall_inactive idle off _ _ _, fun on same => ?_, fun on other => ?_⟩
  · subst same
    rw [exec_setDirection_active idle on, switch_self, State.after_nil]
  · rw [exec_setDirection_active idle on]
    cases hd : s.direction <;> cases d
    case drive.drive | sample.sample => exact absurd hd other
    case drive.sample | sample.drive => rfl

end Sys2Proof.Claims
end

section
/-! O26 to O31: the Protocol-Session Layer (R130 to R134). Each call of `activate`, `enter`, `getError` and `exit` on an idle engine is
settled by its whole next state; the modes of R130's table are read off these states. -/

namespace Sys2Proof.Machine

open Sys2Proof.Trace Sys2Proof.Claims

/-! ### The modes -/

/-- The three modes as values of the two flags (R25). -/
theorem State.mode_eq_some {s : State} {m : Mode} :
    s.mode = some m ↔ s.active = decide (m ≠ .inactive) ∧ s.inSession = decide (m = .inSession) := by
  unfold State.mode
  cases s.active <;> cases s.inSession <;> cases m <;> decide

theorem State.mode_congr {s t : State} (active : t.active = s.active) (inSession : t.inSession = s.inSession) : t.mode = s.mode := by
  rw [State.mode, State.mode, active, inSession]

/-! ### The bodies of the session's calls -/

/-- The change to active (R131): its seven events and the flags they go with. -/
theorem State.driveLines_eq (s : State) :
    s.driveLines = { s.after Trace.driveLines with active := true, inSession := false, direction := .drive } :=
  State.after_eq { s with active := true, inSession := false, direction := .drive } Trace.driveLines

/-- The change to inactive (R131): its four events and the flags they go with. -/
theorem State.releaseLines_eq (s : State) :
    s.releaseLines = { s.after Trace.releaseLines with active := false, inSession := false, direction := .sample } :=
  State.after_eq { s with active := false, inSession := false, direction := .sample } Trace.releaseLines

theorem State.entrySequence_eq (s : State) : s.entrySequence = s.after Trace.entry := State.after_eq s Trace.entry

section

variable {s : State} (idle : s.Idle)

include idle

/-! ### `activate`, `enter` and `getError` on an idle engine -/

/-- R131, the no-op. -/
theorem exec_activate_same {on : Bool} (same : on = s.active) :
    exec (.activate on) s = .next { s with errorFlag := 0#8, result := .nothing } := by
  refine (hostCall_idle _ _ idle).trans (congrArg _ ?_)
  rw [activateCall, if_pos same]
  exact State.done_eq_withResult (by exact idle) _

/-- R131, to active. -/
theorem exec_activate_drives (off : s.active = false) :
    exec (.activate true) s =
      .next
        { s.after Trace.driveLines with
          active := true, inSession := false, direction := .drive, errorFlag := 0#8, result := .nothing } := by
  refine (hostCall_idle _ _ idle).trans (congrArg _ ?_)
  rw [activateCall, if_neg (by simp [off]), if_pos rfl, State.driveLines_eq]
  exact State.done_eq_withResult (by exact idle) _

/-- R131, to inactive. -/
theorem exec_activate_releases (on : s.active = true) :
    exec (.activate false) s =
      .next
        { s.after Trace.releaseLines with
          active := false, inSession := false, direction := .sample, errorFlag := 0#8, result := .nothing } := by
  refine (hostCall_idle _ _ idle).trans (congrArg _ ?_)
  rw [activateCall, if_neg (by simp [on]), if_neg Bool.false_ne_true, State.releaseLines_eq]
  exact State.done_eq_withResult (by exact idle) _

/-- R132, rejected. -/
theorem exec_enter_inactive (off : s.active = false) :
    exec .enter s = .next { s with errorFlag := 1#8, result := .byte 0#8 } := by
  have check : activeCheck s = some errInactive := by simp [activeCheck, off]
  refine (hostCall_idle _ _ idle).trans (congrArg _ ?_)
  simp only [enterCall, check]
  exact State.reject_idle idle _ _

/-- R132, refused. -/
theorem exec_enter_inSession (on : s.active = true) (ses : s.inSession = true) : exec .enter s = .next s.refuse := by
  have check : activeCheck s = none := by simp [activeCheck, on]
  refine (hostCall_idle _ _ idle).trans (congrArg _ ?_)
  simp only [enterCall, check, ses, if_true]

/-- R132, accepted. -/
theorem exec_enter_outOfSession (on : s.active = true) (out : s.inSession = false) :
    exec .enter s = .next { s.after Trace.entry with inSession := true, errorFlag := 0#8, result := .byte 0#8 } := by
  have check : activeCheck s = none := by simp [activeCheck, on]
  refine (hostCall_idle _ _ idle).trans (congrArg _ ?_)
  simp only [enterCall, check, out, Bool.false_eq_true, if_false, State.entrySequence_eq]
  exact State.done_eq_withResult (by exact idle) _

/-- R134. -/
theorem exec_getError_idle : exec .getError s = .next { s with result := .byte s.errorFlag } :=
  (hostCall_idle _ _ idle).trans (congrArg _ (State.done_eq_withResult idle _))

/-! ### Transactions on an idle engine -/

section

variable {i : Instr} {frame : List U8} {n : Nat} {fin : Finish} {r : Result} (is : transactionOf i = some (frame, n, fin, r))

include is

/-- R202, R204: error 1 and the rejection result, and nothing else. -/
theorem exec_transaction_inactive (off : s.active = false) :
    exec i s = .next { s with errorFlag := 1#8, result := r } := by
  rw [exec_transaction i _ _ _ _ s is, hostCall_idle _ s idle, transact_inactive _ _ _ _ s off, State.reject_idle idle, errInactive]

/-- R202, R204: error 2 and the rejection result, and nothing else. -/
theorem exec_transaction_outOfSession (on : s.active = true) (out : s.inSession = false) :
    exec i s = .next { s with errorFlag := 2#8, result := r } := by
  rw [exec_transaction i _ _ _ _ s is, hostCall_idle _ s idle, transact_outOfSession _ _ _ _ s on out, State.reject_idle idle,
    errNotInSession]

/-- R160: with a target that serves it, a transaction returns; its end (R133, R161 to R171) writes the result and, for `exit`, the
session. -/
theorem exec_transaction_serves (on : s.active = true) (ses : s.inSession = true) {k : Nat} {bytes : List U8} {t : Target}
    (len : bytes.length = n) (serves : s.target.Serves k bytes t) :
    exec i s = .next ((transacted s frame k bytes t s.result).concluded bytes fin) := by
  obtain ⟨-, nonempty, -⟩ := transactionOf_frame i _ _ _ _ is
  obtain ⟨b, frame, rfl⟩ := List.exists_cons_of_ne_nil nonempty
  rw [exec_transaction i _ _ _ _ s is, hostCall_idle _ s idle, transact_serves b frame n fin r s k bytes t on ses len serves]
  rfl

end

/-- R133, accepted, with a target that serves the status byte. -/
theorem exec_exit_serves (on : s.active = true) (ses : s.inSession = true) {k : Nat} {v : U8} {t : Target}
    (serves : s.target.Serves k [v] t) :
    exec .exit s = .next { transacted s [0x48#8] k [v] t (.byte 0#8) with inSession := false } := by
  have returned : (transacted s [0x48#8] k [v] t (.byte 0#8)).inFlight = none := idle
  rw [exec_transaction_serves idle rfl on ses rfl serves, State.concluded, ← returned]
  rfl

/-! ### The modes of R130's table -/

variable {t : State} {m : Mode} (mode : s.mode = some m)

include mode

theorem mode_of_activate {on : Bool} (h : exec (.activate on) s = .next t) : t.mode = some (modeAfter m (.activate on)) := by
  obtain ⟨active, -⟩ := State.mode_eq_some.mp mode
  by_cases hm : m = .inactive
  · subst hm
    cases on with
    | true =>
      rw [exec_activate_drives idle (by simp [active])] at h
      cases h
      rfl
    | false =>
      rw [exec_activate_same idle (by simp [active])] at h
      cases h
      exact mode
  · cases on with
    | true =>
      rw [exec_activate_same idle (by simp [active, hm])] at h
      cases h
      rw [modeAfter, if_neg hm]
      exact mode
    | false =>
      rw [exec_activate_releases idle (by simp [active, hm])] at h
      cases h
      rfl

theorem mode_of_enter (h : exec .enter s = .next t) : t.mode = some (modeAfter m .enter) := by
  obtain ⟨active, inSession⟩ := State.mode_eq_some.mp mode
  cases m with
  | inactive =>
    rw [exec_enter_inactive idle active] at h
    cases h
    exact mode
  | outOfSession =>
    rw [exec_enter_outOfSession idle active inSession] at h
    cases h
    exact State.mode_eq_some.mpr ⟨active, rfl⟩
  | inSession =>
    rw [exec_enter_inSession idle active inSession] at h
    cases h
    exact mode

/-- The table speaks of an `exit` that returned: one that waits for the target has not left the session yet (R133, R206). -/
theorem mode_of_exit (h : exec .exit s = .next t) (returned : t.Idle) : t.mode = some (modeAfter m .exit) := by
  obtain ⟨active, inSession⟩ := State.mode_eq_some.mp mode
  cases m with
  | inactive =>
    rw [exec_transaction_inactive idle rfl active] at h
    cases h
    exact mode
  | outOfSession =>
    rw [exec_transaction_outOfSession idle rfl active inSession] at h
    cases h
    exact mode
  | inSession =>
    rw [exec_transaction .exit _ _ _ _ s rfl, hostCall_idle _ s idle] at h
    cases h
    obtain ⟨j, ⟨bytes, u, -, leaves⟩ | ⟨u, waits⟩⟩ :=
      transact_accepted_cases 0x48#8 [] 1 .leaveSession (.byte 0) s active inSession
    · rw [leaves]
      exact State.mode_eq_some.mpr ⟨active, rfl⟩
    · rw [waits] at returned
      exact nomatch returned

end

end Sys2Proof.Machine

namespace Sys2Proof.Claims

open Sys2Proof.Machine

/-- Settles O26: the three branches of R131. -/
theorem activateSwitchesTheLines : Obligations.ActivateSwitchesTheLines :=
  fun _ idle => ⟨fun _ same => exec_activate_same idle same, exec_activate_drives idle, exec_activate_releases idle⟩

/-- Settles O27: the three branches of R132. -/
theorem enterRunsTheEntrySequence : Obligations.EnterRunsTheEntrySequence :=
  fun _ idle => ⟨exec_enter_inactive idle, exec_enter_inSession idle, exec_enter_outOfSession idle⟩

/-- Settles O28: `exit` is a transaction whose end leaves the session. -/
theorem exitResumesAndLeaves : Obligations.ExitResumesAndLeaves :=
  fun _ idle => ⟨exec_transaction_inactive idle rfl, exec_transaction_outOfSession idle rfl,
    fun on ses _ _ _ serves => exec_exit_serves idle on ses serves⟩

/-- Settles O29. -/
theorem getErrorReadsTheFlag : Obligations.GetErrorReadsTheFlag := fun _ idle => exec_getError_idle idle

/-- Settles O30: only the three session calls write the mode flags, and each follows R130's table. -/
theorem sessionTransitions : Obligations.SessionTransitions := by
  intro i s t m idle mode h returned
  cases i with
  | activate on => exact mode_of_activate idle mode h
  | enter => exact mode_of_enter idle mode h
  | exit => exact mode_of_exit idle mode h returned
  | _ =>
    obtain ⟨active, inSession⟩ := modeFlagsWrittenOnlyBySessionCalls _ s t h nofun
    exact (State.mode_congr active (inSession nofun nofun)).trans mode

/-- Settles O31: `enter` does not sample, so `exit` meets the target the session began with. -/
theorem enterThenExitComesBack : Obligations.EnterThenExitComesBack := by
  intro s k v w idle mode serves
  obtain ⟨on, out⟩ := State.mode_eq_some.mp mode
  refine ⟨_, _, exec_enter_outOfSession idle on out, State.mode_eq_some.mpr ⟨on, rfl⟩,
    exec_exit_serves (k := k) (v := v) (t := w) ?_ ?_ ?_ ?_, State.mode_eq_some.mpr ⟨on, rfl⟩, rfl⟩
  exacts [idle, on, rfl, serves]

end Sys2Proof.Claims
end

section
/-! O32 to O43, O45, O46: the Instruction Layer (R160 to R172). Each operation is the transaction `transactionOf` gives for it, so one
lemma per end of a transaction settles every operation with that end; the event count and the lines at rest are facts about R160's
trace. -/

namespace Sys2Proof.Machine

open Sys2Proof.Trace Sys2Proof.Claims

/-! ### What a transaction returns -/

/-- R75, R171: the last of `n` bytes stands at place `n - 1`. -/
theorem lastByteRead_eq_getD {bytes : List U8} {n : Nat} (len : bytes.length = n) : lastByteRead bytes = bytes.getD (n - 1) 0#8 := by
  rw [lastByteRead, List.getLastD_eq_getLast?, List.getLast?_eq_getElem?, len, List.getD_eq_getElem?_getD]
  rfl

/-- R172: no frame for no opcode byte or for more than three. -/
theorem execFrame_eq_none {ocs : List U8} (bad : ocs.length = 0 ∨ 3 < ocs.length) : execFrame ocs = none := by
  match ocs, bad with
  | [], _ | _ :: _ :: _ :: _ :: _, _ => rfl
  | [_], bad | [_, _], bad | [_, _, _], bad => simp at bad

/-- R172, R209: an `exec` without a frame is refused in every state, busy or idle. -/
theorem exec_exec_refused {ocs : List U8} (noFrame : execFrame ocs = none) (s : State) : exec (.exec ocs) s = .next s.refuse := by
  rcases hostCall_cases (execCall ocs) s with ⟨-, idle⟩ | ⟨-, busy⟩
  · exact idle.trans (by rw [execCall, noFrame])
  · exact busy

/-- Every operation with a frame is the transaction of R72's table, and only `exit`'s leaves the session (R133). -/
theorem transactionOf_eq_encode {i : Instr} (hi : isTransaction i = true) :
    ∃ fin rej, transactionOf i = some (encode i, bytesRead i, fin, rej) ∧ (fin = .leaveSession ↔ i = .exit) := by
  by_cases exits : i = .exit
  · subst exits
    exact ⟨.leaveSession, _, rfl, iff_of_true rfl rfl⟩
  · obtain ⟨fin, rej, stays, is⟩ := transactionOf_of_isTransaction i hi exits
    exact ⟨fin, rej, is, iff_of_false stays exits⟩

/-- R160: an accepted transaction that returned, whatever the target answered, has emitted the trace of some busy samples and of as many
bytes as it reads. -/
theorem exec_transaction_returned {i : Instr} {frame : List U8} {n : Nat} {fin : Finish} {r : Result} {s t : State}
    (is : transactionOf i = some (frame, n, fin, r)) (idle : s.Idle) (on : s.active = true) (ses : s.inSession = true)
    (h : exec i s = .next t) (returned : t.Idle) :
    ∃ k bytes u, bytes.length = n ∧ t = (transacted s frame k bytes u s.result).concluded bytes fin := by
  obtain ⟨-, nonempty, -⟩ := transactionOf_frame i _ _ _ _ is
  obtain ⟨b, frame, rfl⟩ := List.exists_cons_of_ne_nil nonempty
  rw [exec_transaction i _ _ _ _ s is, hostCall_idle _ s idle] at h
  cases h
  obtain ⟨k, ⟨bytes, u, len, ends⟩ | ⟨u, waits⟩⟩ := transact_accepted_cases b frame n fin r s on ses
  · exact ⟨k, bytes, u, len, ends⟩
  · rw [waits] at returned
    exact nomatch returned

/-! ### The trace of a transaction -/

/-- R160: 40 events per byte written or read, 7 for the two settle holds, the last sample and the two switches, 33 per busy sample, and
3 more when the transaction begins in `sample`. -/
theorem length_transaction (d : Direction) (frame : List U8) (k : Nat) (bytes : List U8) :
    (transaction d frame k bytes).length =
      40 * frame.length + 40 * bytes.length + 7 + 33 * k + if d = .drive then 0 else 3 := by
  have written : (frame.flatMap WB).length = 40 * frame.length := by simp [List.length_flatMap, Nat.mul_comm]
  have read : (bytes.flatMap RB).length = 40 * bytes.length := by simp [List.length_flatMap, Nat.mul_comm]
  have smp : SMP.length = 1 := rfl
  have drv : DRV.length = 3 := rfl
  simp only [transaction, List.length_append, length_switch_drive, length_handshake, written, read, smp, drv]
  omega

/-- R71, R160: the clock pulses of the last byte read leave DC at 0 and the switch to drive leaves DD_O driven 0 and DD_I an input,
whatever the lines were. -/
theorem pinsAfter_transaction_atRest (ps : Pins) (d : Direction) (frame : List U8) (k : Nat) {bytes : List U8} (reads : bytes ≠ []) :
    (pinsAfter ps (transaction d frame k bytes)).ddo = { mode := .output, level := false } ∧
      (pinsAfter ps (transaction d frame k bytes)).dc.level = false ∧
      (pinsAfter ps (transaction d frame k bytes)).ddi.mode = .input := by
  have ending : bytes.flatMap RB = bytes.dropLast.flatMap RB ++ RB (bytes.getLast reads) := by
    conv_lhs => rw [← List.dropLast_append_getLast reads]
    simp
  simp only [transaction, ending, pinsAfter_append]
  exact ⟨rfl, rfl, rfl⟩

end Sys2Proof.Machine

namespace Sys2Proof.Claims

open Sys2Proof.Machine

/-! ### One statement per end of a transaction -/

section

variable {i : Instr} {frame : List U8} {n : Nat} {rej : Result}

/-- A transaction whose end is a return of `value` does what R160 and R201 say. -/
theorem IsTransaction.of_done {fin : Finish} {value : List U8 → Result} (is : transactionOf i = some (frame, n, fin, rej))
    (ends : ∀ (u : State) (bytes : List U8), bytes.length = n → u.concluded bytes fin = u.done (value bytes)) :
    IsTransaction i frame n value rej := by
  refine fun s idle => ⟨exec_transaction_inactive idle is, exec_transaction_outOfSession idle is,
    fun on ses k bytes t len serves => ?_⟩
  have stillIdle : (transacted s frame k bytes t s.result).Idle := idle
  rw [exec_transaction_serves idle is on ses len serves, ends _ _ len, State.done_eq_withResult stillIdle]
  rfl

/-- R161 to R166, R169 to R171: the result is the last of the `n` bytes read. -/
theorem IsTransaction.of_lastByte (is : transactionOf i = some (frame, n, .lastByte, rej)) :
    IsTransaction i frame n (fun r => .byte (r.getD (n - 1) 0#8)) rej :=
  .of_done is fun u _ len => congrArg (fun v => u.done (.byte v)) (lastByteRead_eq_getD len)

/-- R167, R168: the result is the first two bytes read, the first one high. -/
theorem IsTransaction.of_word16 (is : transactionOf i = some (frame, n, .word16, rej)) :
    IsTransaction i frame n
      (fun r => .word (((r.getD 0 0#8).zeroExtend 16 <<< 8) ||| (r.getD 1 0#8).zeroExtend 16)) rej :=
  .of_done is fun _ _ _ => rfl

end

/-- Settles O32. -/
theorem readConfigTransaction : Obligations.ReadConfigTransaction := .of_lastByte rfl

/-- Settles O33. -/
theorem writeConfigTransaction : Obligations.WriteConfigTransaction := fun _ => .of_lastByte rfl

/-- Settles O34. -/
theorem exec1Transaction : Obligations.Exec1Transaction := fun _ => .of_lastByte rfl

/-- Settles O35. -/
theorem exec2Transaction : Obligations.Exec2Transaction := fun _ _ => .of_lastByte rfl

/-- Settles O36. -/
theorem exec3Transaction : Obligations.Exec3Transaction := fun _ _ _ => .of_lastByte rfl

/-- Settles O37: the two bytes of the immediate are `hiByte` and `loByte`, in this order. -/
theorem execImm16Transaction : Obligations.ExecImm16Transaction := by
  intro oc0 c0
  rw [← hiByte_eq_truncate, ← loByte_eq_truncate]
  exact .of_lastByte rfl

/-- Settles O38. -/
theorem getChipIdTransaction : Obligations.GetChipIdTransaction := .of_word16 rfl

/-- Settles O39. -/
theorem getPCTransaction : Obligations.GetPCTransaction := .of_word16 rfl

/-- Settles O40. -/
theorem getStatusTransaction : Obligations.GetStatusTransaction := .of_lastByte rfl

/-- Settles O41. -/
theorem singleStepTransaction : Obligations.SingleStepTransaction := .of_lastByte rfl

/-- Settles O42: whatever the two parameters are, the last byte read is the result. -/
theorem massEraseTransaction : Obligations.MassEraseTransaction := .of_lastByte rfl

/-- Settles O43: one to three bytes have a frame, and without a frame the call is refused before any check. -/
theorem execExpandsByLength : Obligations.ExecExpandsByLength :=
  ⟨fun _ => .of_lastByte rfl, fun _ _ => .of_lastByte rfl, fun _ _ _ => .of_lastByte rfl,
    fun _ s bad => exec_exec_refused (execFrame_eq_none bad) s⟩

/-- Settles O45: the trace of a served transaction is R160's, whose length is `length_transaction`. -/
theorem transactionEventCount : Obligations.TransactionEventCount := by
  intro i s k r t hi idle on ses len serves
  obtain ⟨fin, rej, is, -⟩ := transactionOf_eq_encode hi
  refine ⟨_, exec_transaction_serves idle is on ses len serves, ?_⟩
  have trace : (transacted s (encode i) k r t s.result).trace = s.trace ++ Trace.transaction s.direction (encode i) k r := rfl
  rw [State.concluded_trace, trace, List.length_append, length_transaction, len]
  omega

/-- Settles O46: a transaction reads at least one byte, whose last clock pulse and the switch after it put the lines at rest; none of
its events touches RST, and only `exit`'s end leaves the session. -/
theorem transactionLeavesTheLinesAtRest : Obligations.TransactionLeavesTheLinesAtRest := by
  intro i s t hi idle on ses h returned
  obtain ⟨fin, rej, is, exits⟩ := transactionOf_eq_encode hi
  obtain ⟨-, -, pos⟩ := transactionOf_frame i _ _ _ _ is
  obtain ⟨k, bytes, u, len, rfl⟩ := exec_transaction_returned is idle on ses h returned
  have pins : ((transacted s (encode i) k bytes u s.result).concluded bytes fin).pins =
      Trace.pinsAfter s.pins (Trace.transaction s.direction (encode i) k bytes) := State.concluded_pins _ _ _
  obtain ⟨ddo, dc, ddi⟩ := pinsAfter_transaction_atRest s.pins s.direction (encode i) k
    (List.ne_nil_of_length_pos (len ▸ pos : 0 < bytes.length))
  rw [pins]
  refine ⟨ddo, dc, ddi, pinsAfter_rst (all_sparesRst_transaction _ _ _ _) _, State.concluded_direction _ _ _,
    State.concluded_errorFlag _ _ _, (State.concluded_active _ _ _).trans on, ?_⟩
  have stays : (transacted s (encode i) k bytes u s.result).inSession = true := ses
  simp [stays, exits]

end Sys2Proof.Claims
end

section
/-! O13, O48 to O50: errors and refusals (R200 to R209). A call is refused while another is in flight; a failed check rejects it with
the check's code; an accepted transaction has two outcomes, which are those of its wait. -/

namespace Sys2Proof.Machine

open Sys2Proof.Trace Sys2Proof.Claims

/-! ### Refusals -/

/-- R209, R214: while an operation is in flight every call is refused. -/
theorem exec_busy {s : State} (busy : ¬ s.Idle) (i : Instr) : exec i s = .next s.refuse := by
  obtain ⟨body, -, call⟩ := exec_eq_hostCall_blind i
  exact (call s).trans (hostCall_busy body s busy)

/-! ### Rejections -/

/-- R201: the value a rejected transaction returns is the one of its result's type. -/
theorem rejectionResult_of_transactionOf {i : Instr} {frame : List U8} {n : Nat} {fin : Finish} {r : Result}
    (is : transactionOf i = some (frame, n, fin, r)) : r = rejectionResult i := by
  cases i with
  | exec ocs =>
    match ocs, is with
    | [_], rfl | [_, _], rfl | [_, _, _], rfl => rfl
  | setDirection | writeByte | readByte | awaitReadable | activate | enter | getError => exact nomatch is
  | _ =>
    cases is
    rfl

/-- R202: the calls that check `inSession` are `writeByte` and the transactions. -/
theorem needsSession_cases {i : Instr} (needs : needsSession i = true) :
    (∃ v, i = .writeByte v) ∨ isTransaction i = true := by
  cases i with
  | writeByte v => exact .inl ⟨v, rfl⟩
  | _ => exact .inr needs

section

variable {s : State} (idle : s.Idle)

include idle

/-- R202, R204: a call that needs a session and fails a check reports its code, and nothing else. -/
theorem exec_needsSession_rejected {i : Instr} (needs : needsSession i = true) {code : U8} (check : sessionCheck s = some code) :
    exec i s = .next { s with errorFlag := code, result := rejectionResult i } := by
  rcases needsSession_cases needs with ⟨v, rfl⟩ | transacts
  · exact exec_writeByte_rejected idle check v
  · obtain ⟨fin, rej, is, -⟩ := transactionOf_eq_encode transacts
    obtain rfl := rejectionResult_of_transactionOf is
    rw [exec_transaction i _ _ _ _ s is, hostCall_idle _ s idle, ← State.reject_idle idle]
    simp only [transact, check]

/-- R203: `active` is checked first, so an inactive engine reports error 1 whether or not the call also needs a session. -/
theorem exec_needsActive_inactive {i : Instr} (needs : needsActive i = true) (off : s.active = false) :
    exec i s = .next { s with errorFlag := 1#8, result := rejectionResult i } := by
  have check : sessionCheck s = some errInactive := by simp [sessionCheck, off]
  cases i with
  | setDirection | readByte | awaitReadable => exact hostCall_primitiveCall_inactive idle off _ _ _
  | enter => exact exec_enter_inactive idle off
  | activate | getError => exact nomatch needs
  | _ => exact exec_needsSession_rejected idle (by exact needs) check

/-! ### The outcomes of an accepted transaction -/

/-- R160, R206: whatever the target answers, an accepted transaction has returned after some busy samples and as many bytes as it reads,
or is in flight after its frame and some busy samples. -/
theorem exec_transaction_accepted {i : Instr} {frame : List U8} {n : Nat} {fin : Finish} {r : Result}
    (is : transactionOf i = some (frame, n, fin, r)) (on : s.active = true) (ses : s.inSession = true) :
    ∃ k,
      (∃ bytes u, bytes.length = n ∧ exec i s = .next ((transacted s frame k bytes u s.result).concluded bytes fin)) ∨
        ∃ u,
          exec i s =
            .next
              { s.after (switch s.direction .drive ++ frame.flatMap WB ++ SMP ++ .hold .settle :: busy k) with
                errorFlag := 0#8, direction := .sample, written := s.written ++ frame, target := u
                inFlight := some (.transaction n fin) } := by
  obtain ⟨-, nonempty, -⟩ := transactionOf_frame i _ _ _ _ is
  obtain ⟨b, frame, rfl⟩ := List.exists_cons_of_ne_nil nonempty
  have call := (exec_transaction i _ _ _ _ s is).trans (hostCall_idle _ s idle)
  obtain ⟨k, ⟨bytes, u, len, ends⟩ | ⟨u, waits⟩⟩ := transact_accepted_cases b frame n fin r s on ses
  · exact ⟨k, .inl ⟨bytes, u, len, call.trans (congrArg _ ends)⟩⟩
  · exact ⟨k, .inr ⟨u, call.trans (congrArg _ waits)⟩⟩

end

end Sys2Proof.Machine

namespace Sys2Proof.Claims

open Sys2Proof.Machine

/-- Settles O13, over the two outcomes of the wait. -/
theorem acceptedTransactionReturnsOrWaits : Obligations.AcceptedTransactionReturnsOrWaits := by
  intro i s transacts idle on ses
  obtain ⟨fin, rej, is, -⟩ := transactionOf_eq_encode transacts
  obtain ⟨k, ⟨bytes, u, len, returns⟩ | ⟨u, waits⟩⟩ := exec_transaction_accepted idle is on ses
  · exact ⟨_, k, returns, State.concluded_written _ _ _, State.concluded_errorFlag _ _ _, (State.concluded_active _ _ _).trans on,
      .inl ⟨bytes, len, State.concluded_inFlight _ _ _, State.concluded_direction _ _ _, State.concluded_trace _ _ _⟩⟩
  · exact ⟨_, k, waits, rfl, rfl, on, .inr ⟨Option.some_ne_none _, rfl, ses, rfl, by simp⟩⟩

/-- Settles O48: the first check that fails is that of `active`, and an `exec` without a frame is refused before it. -/
theorem inactiveCallsReportErrorOne : Obligations.InactiveCallsReportErrorOne :=
  ⟨fun _ _ needs idle off => exec_needsActive_inactive idle needs off,
    fun _ s _ _ bad => exec_exec_refused (execFrame_eq_none bad) s⟩

/-- Settles O49: on an active engine the check that fails is that of `inSession`. -/
theorem outOfSessionCallsReportErrorTwo : Obligations.OutOfSessionCallsReportErrorTwo := by
  intro i s needs idle on out
  have check : sessionCheck s = some errNotInSession := by simp [sessionCheck, on, out]
  exact exec_needsSession_rejected idle needs check

/-- Settles O50, one lemma per row of R209's table. -/
theorem callsOutsideTheContractAreRefused : Obligations.CallsOutsideTheContractAreRefused :=
  ⟨fun i _ busy => exec_busy busy i, fun _ idle on ses => exec_enter_inSession idle on ses,
    fun _ s _ bad => exec_exec_refused (execFrame_eq_none bad) s⟩

end Sys2Proof.Claims
end

section
/-! O2, O59: construction (R231) and the time of the holds (R246). The time of a trace is additive over its blocks, so what a call adds
to it is the time of the block the call adds to the trace. -/

namespace Sys2Proof.Trace

open Sys2Proof.Machine

/-! ### The hold time of a trace and of its blocks -/

theorem holdTime_append (es fs : List Event) : holdTime (es ++ fs) = holdTime es + holdTime fs := by
  induction es with
  | nil => simp [holdTime]
  | cons e es ih => cases e <;> simp [holdTime, ih, Nat.add_assoc]

theorem holdTime_P : holdTime P = 2 * Config.duration .tick := by
  simp only [P, holdTime]
  omega

theorem holdTime_W (b : Bit) : holdTime (W b) = 2 * Config.duration .tick := holdTime_P

theorem holdTime_WB (v : U8) : holdTime (WB v) = 8 * (2 * Config.duration .tick) := by
  simp only [WB, holdTime_append, holdTime_W]
  omega

theorem holdTime_P8 : holdTime P8 = 16 * Config.duration .tick := by
  simp only [P8, holdTime_append, holdTime_P]
  omega

theorem holdTime_entry : holdTime entry = 2 * Config.duration .entry + 4 * Config.duration .tick := by
  simp only [entry, holdTime_append, holdTime_P, holdTime]
  omega

theorem holdTime_switch (d d' : Direction) : holdTime (switch d d') = 0 := by
  cases d <;> cases d' <;> rfl

end Sys2Proof.Trace

namespace Sys2Proof.Machine

open Sys2Proof.Trace

/-! ### A busy turn of an operation in flight -/

/-- An operation that stays in flight: writing it again is no change. -/
theorem State.after_inFlight_self {s : State} {k : Option InFlight} (h : s.inFlight = k) (es : List Event) (t : Target) :
    { s.after es with target := t, inFlight := k } = { s.after es with target := t } := by
  rw [← h]
  rfl

/-- R104: a settled busy answer costs the operation in flight one burst. -/
theorem step_busyTurn {s : State} {k : InFlight} {rest : List Bit} (flies : s.inFlight = some k) (pins : s.target.fixture = .pins)
    (answers : s.target.answers = true :: rest) :
    step s = .next { s.after (.pinSample .ddi true :: P8) with target := { s.target with answers := rest } } := by
  have uncued : s.target.cuePoll = s.target := by simp [Target.cuePoll, pins]
  have given := s.target.next_settled true rest answers
  have turn : s.resume k =
      { s.after (.pinSample .ddi true :: P8) with target := { s.target with answers := rest }, inFlight := some k } := by
    rw [State.resume_eq, uncued]
    exact (State.poll_busy k 0 s (by rw [given])).trans (by simp [State.poll, State.after_eq, given])
  simp only [step, flies, turn, State.after_inFlight_self flies]

end Sys2Proof.Machine

namespace Sys2Proof.Claims

open Sys2Proof.Machine Sys2Proof.Trace

/-- Settles O2: the trace of construction is a field of the reset state, written out. -/
theorem constructionEmitsSevenEvents : Obligations.ConstructionEmitsSevenEvents := rfl

/-- Settles O59: each call adds one block to the trace, and the block's hold time is R246's figure. -/
theorem holdsTakeTheirDurations : Obligations.HoldsTakeTheirDurations := by
  refine ⟨fun v s t idle on ses h => ?written, fun s t idle on out h => ?entered, fun s t k rest flies pins answers h => ?waited⟩
  case written =>
    rw [writeByte_trace idle on ses h, holdTime_append, holdTime_append, holdTime_switch, holdTime_WB, Nat.zero_add]
  case entered =>
    rw [exec_enter_outOfSession idle on out] at h
    cases h
    exact (holdTime_append s.trace entry).trans (by rw [holdTime_entry, Nat.add_assoc])
  case waited =>
    rw [step_busyTurn flies pins answers] at h
    cases h
    exact (holdTime_append s.trace (.pinSample .ddi true :: P8)).trans (congrArg _ holdTime_P8)

end Sys2Proof.Claims
end

section
/-! O8 to O12: the step (R8) and the wait (R104, R206). A step of an idle engine is the host's next call; a step of an operation in
flight is one turn of its loop, busy or ready by the target's next answer, and a run through `n` settled busy answers is `n` bursts. -/

namespace Sys2Proof.Machine

open Sys2Proof.Trace Sys2Proof.Claims

/-! ### The steps of an idle engine -/

theorem step_nextCall {s : State} {i : Instr} {rest : List Instr} (idle : s.Idle) (calls : s.calls = i :: rest) :
    step s = exec i { s with calls := rest } := by
  simp only [step, show s.inFlight = none from idle, State.takeCall, calls]

theorem step_noCall {s : State} (idle : s.Idle) (calls : s.calls = []) : step s = .next s := by
  simp only [step, show s.inFlight = none from idle, State.takeCall, calls]

theorem step_withCall (s : State) (i : Instr) : step (s.withCall i) = exec i { s with inFlight := none } :=
  step_nextCall rfl rfl

theorem State.withFetchWord_eq_withCall {nbits w : Nat} {i : Instr} (h : decodeTableWord nbits w = some i) (s : State) :
    s.withFetchWord nbits w = s.withCall i := by
  simp only [State.withFetchWord, h]

/-! ### One turn of a wait -/

/-- A free answer of the target is the one of the draw count (R34, U4). -/
theorem Target.next_free {t : Target} (h : t.answers = []) :
    t.next = (Config.ddiAnswer t.draws, { t with draws := t.draws + 1 }) := by
  simp [Target.next, h]

theorem Target.cuePoll_pins {t : Target} (pins : t.fixture = .pins) : t.cuePoll = t := by
  simp [Target.cuePoll, pins]

/-- The state after events in which the target has given answers and become `t`: all that a busy turn writes (R104). -/
def State.sampled (s : State) (es : List Event) (t : Target) : State := { s.after es with target := t }

@[simp] theorem State.sampled_inFlight (s : State) (es : List Event) (t : Target) : (s.sampled es t).inFlight = s.inFlight := rfl

@[simp] theorem State.sampled_direction (s : State) (es : List Event) (t : Target) : (s.sampled es t).direction = s.direction := rfl

@[simp] theorem State.sampled_target (s : State) (es : List Event) (t : Target) : (s.sampled es t).target = t := rfl

theorem State.sampled_sampled (s : State) (es fs : List Event) (t u : Target) :
    (s.sampled es t).sampled fs u = s.sampled (es ++ fs) u := by
  simp [State.sampled, State.after, pinsAfter]

theorem State.sampled_nil (s : State) : s.sampled [] s.target = s := by
  rw [State.sampled, State.after_nil]

section

variable {s : State} {k : InFlight} (flies : s.inFlight = some k) (pins : s.target.fixture = .pins)

include flies pins

theorem step_turn : step s = .next (State.poll k 1 s) := by
  have turn : s.resume k = State.poll k 1 s := by rw [State.resume_eq, Target.cuePoll_pins pins]
  simp only [step, flies, turn]

/-- R104: a turn whose sample is 1, settled or drawn, costs one burst. -/
theorem step_turn_busy (busy : s.target.next.1 = true) :
    step s = .next (s.sampled (.pinSample .ddi true :: P8) s.target.next.2) := by
  rw [step_turn flies pins, State.poll_busy k 0 s busy, State.after_eq, State.poll, State.sampled,
    ← State.after_inFlight_self flies]

/-- R104: a turn whose sample is 0, settled or drawn, ends the wait. -/
theorem step_turn_ready (ready : s.target.next.1 = false) :
    step s = .next ((s.sampled [.pinSample .ddi false, .hold .settle] s.target.next.2).afterReady k) := by
  rw [step_turn flies pins, State.poll_ready k 0 s ready, State.after_eq, State.sampled]

/-! ### Runs through settled answers -/

/-- R206: `n` settled busy answers cost `n` steps of one burst each. -/
theorem core_run_busy {n : Nat} {rest : List Bit} (answers : s.target.answers = List.replicate n true ++ rest) :
    Sys2Proof.core.run n s = Host.Outcome.next (s.sampled (busy n) { s.target with answers := rest }) := by
  induction n generalizing s with
  | zero =>
    obtain rfl : s.target.answers = rest := answers
    exact (core_run_zero s).trans (congrArg _ s.sampled_nil.symm)
  | succ n ih =>
    have turn := step_busyTurn flies pins (rest := List.replicate n true ++ rest) answers
    have turns := ih (s := s.sampled (.pinSample .ddi true :: P8) { s.target with answers := List.replicate n true ++ rest })
      (by simpa) (by simpa) rfl
    rw [State.sampled_sampled] at turns
    exact (core_run_succ n s _ turn).trans turns

/-- R104: a ready answer after `n` busy ones ends the wait at the `n + 1`-st step. -/
theorem core_run_ready {n : Nat} {rest : List Bit} (answers : s.target.answers = List.replicate n true ++ false :: rest) :
    Sys2Proof.core.run (n + 1) s =
      Host.Outcome.next
        ((s.sampled (busy n ++ [.pinSample .ddi false, .hold .settle]) { s.target with answers := rest }).afterReady k) := by
  have turn := step_turn_ready (s := s.sampled (busy n) { s.target with answers := false :: rest }) (by simpa) (by simpa) rfl
  rw [State.sampled_sampled] at turn
  exact (core_run_add n 1 s _ (core_run_busy flies pins answers)).trans (core_run_one _ _ turn)

end

/-! ### The ends of a wait -/

/-- R133, R160: a transaction found ready by a target that has the bytes to give reads them, switches to drive and returns. -/
theorem State.afterReady_reads {s : State} (samples : s.direction = .sample) {bytes : List U8} {t : Target}
    (reads : s.target.Reads bytes t) (fin : Finish) :
    s.afterReady (.transaction bytes.length fin) =
      ({ s.sampled (bytes.flatMap RB ++ DRV) t with direction := .drive }).concluded bytes fin := by
  rw [State.afterReady_transaction s _ fin samples, Target.readSteps_reads s.written bytes s.target t reads, State.after_eq]
  rfl

/-- R206: a direct `awaitReadable` that finds `n` busy answers and no other is in flight after `n` bursts. -/
theorem exec_awaitReadable_busy {s : State} {n : Nat} (idle : s.Idle) (on : s.active = true) (pins : s.target.fixture = .pins)
    (answers : s.target.answers = List.replicate n true) :
    exec .awaitReadable s =
      .next
        { s.after (switch s.direction .sample ++ [.hold .settle] ++ busy n) with
          direction := .sample
          errorFlag := primitiveFlag s
          inFlight := some .handshake
          target := { s.target with answers := [] } } := by
  refine (hostCall_primitiveCall_active idle on _ _).trans (congrArg _ ?_)
  have turns : s.target.answers.length = n + 0 := by simp [answers]
  rw [State.await_eq]
  simp only [Target.cuePoll_pins pins, turns]
  rw [State.poll_replicate .handshake n 0 [] _ (by simpa using answers)]
  simp [State.poll, State.emitAll_eq, State.after, pinsAfter]

end Sys2Proof.Machine

namespace Sys2Proof.Claims

open Sys2Proof.Machine Sys2Proof.Trace

/-- Settles O8: the three cases of the step of an idle engine. -/
theorem stepRunsTheNextCall : Obligations.StepRunsTheNextCall := by
  refine ⟨fun s i rest idle calls => step_nextCall idle calls, fun s idle calls => step_noCall idle calls, fun s nbits w i h => ?_⟩
  rw [State.withFetchWord_eq_withCall h, step_withCall]

/-- Settles O9: a settled answer 1 is a busy turn; a free draw is one or the other. -/
theorem busySampleKeepsTheOperationInFlight : Obligations.BusySampleKeepsTheOperationInFlight := by
  refine fun s k flies pins => ⟨fun rest answers => step_busyTurn flies pins answers, ?_⟩
  rintro answers rfl
  have drawn := Target.next_free answers
  cases sample : Config.ddiAnswer s.target.draws with
  | true =>
    rw [step_turn_busy flies pins (by rw [drawn, sample]), drawn, if_pos rfl]
    rfl
  | false =>
    rw [step_turn_ready flies pins (by rw [drawn, sample]), drawn, if_neg Bool.false_ne_true]
    rfl

/-- Settles O10: by induction on the busy answers in flight, and from the loop of R104 for the direct call. -/
theorem busyTargetNeverLetsGo : Obligations.BusyTargetNeverLetsGo :=
  ⟨fun _ _ _ _ flies pins answers => core_run_busy flies pins answers,
    fun _ _ idle on pins answers => exec_awaitReadable_busy idle on pins answers⟩

/-- Settles O11: nothing follows the ready turn of a direct call but its return. -/
theorem waitingHandshakeReturns : Obligations.WaitingHandshakeReturns := by
  rintro n s t flies ⟨pins, answers, left⟩
  rw [core_run_ready flies pins (by simpa using answers), ← left]
  rfl

/-- Settles O12: after the ready turn the target has the bytes to give, and the end of the transaction returns them. -/
theorem waitingTransactionReturns : Obligations.WaitingTransactionReturns := by
  rintro n m s fin r t flies samples - rfl ⟨pins, answers, left⟩
  refine (core_run_ready flies pins (by simpa using answers)).trans (congrArg _ ?_)
  rw [State.afterReady_reads (by simpa) (by exact .inl ⟨pins, rfl, left⟩), State.sampled_sampled, ← List.append_assoc]
  cases fin with
  | lastByte =>
    rw [State.concluded, lastByteRead_eq_getD rfl]
    rfl
  | word16 | leaveSession => rfl

end Sys2Proof.Claims
end

section
/-! O18: the reader that knows `MASS_ERASE_FRAME` (R72, R171): it looks for the frame only where the table's reader finds no framing
byte (log entry 11). -/

namespace Sys2Proof

open Sys2Proof.Claims

/-- R78, R171: where no framing byte of the table stands, the mass-erase frame is taken off. -/
theorem decodeWire_eraseFrame {f : U8} (notFraming : f ∉ framingBytes) (frame rest : List U8) :
    decodeWire (f :: frame) (f :: frame ++ rest) = .ok (.massErase, rest) := by
  have begins : (f :: frame).isPrefixOf (f :: frame ++ rest) = true := by simp
  have table := decode_notAFramingByte notFraming (frame ++ rest)
  rw [← List.cons_append] at table
  simp only [decodeWire, table, begins, if_true, List.drop_left]

/-- R72: what the table's reader takes for a frame, the reader that knows the mass-erase frame takes for it too (log entry 11). -/
theorem decodeWire_of_decode {bytes rest : List U8} {i : Instr} (h : decode bytes = .ok (i, rest)) (eraseFrame : List U8) :
    decodeWire eraseFrame bytes = .ok (i, rest) := by
  simp only [decodeWire, h]

end Sys2Proof

namespace Sys2Proof.Claims

/-- Settles O18: the frame sent is the frame looked for. -/
theorem massEraseFrameReadsBack : Obligations.MassEraseFrameReadsBack :=
  fun frame rest notFraming => decodeWire_eraseFrame notFraming frame.rest rest

end Sys2Proof.Claims
end

section
/-! O57, O58: the two fixtures (D27). Both are ready at once and settle the byte read from the record of written bytes: the round-trip
fixture its last byte, the config fixture the operand of its last write-config frame. -/

namespace Sys2Proof

open Sys2Proof.Machine

/-! ### The operations on the wire -/

/-- R72: a frame of the table at the head of a record is seen as its operation. -/
theorem wireOps_encode_append {i j : Instr} (h : i.onWire = some j) (eraseFrame rest : List U8) (fuel : Nat) :
    wireOps eraseFrame (fuel + 1) (encode i ++ rest) = j :: wireOps eraseFrame fuel rest := by
  simp only [wireOps, decodeWire_of_decode (decode_encode_append h rest)]

theorem wireOps_nil (eraseFrame : List U8) (fuel : Nat) : wireOps eraseFrame fuel [] = [] := by
  cases fuel <;> rfl

/-- D27 (b): after a write-config frame the config fixture answers its operand. -/
theorem configEchoByte_writeConfig (eraseFrame : List U8) (c : U8) : configEchoByte eraseFrame [0x18#8, c] = some c := by
  have ops : wireOps eraseFrame 2 [0x18#8, c] = [.writeConfig c] := by
    rw [← wireOps_nil eraseFrame 1]
    exact wireOps_encode_append (i := .writeConfig c) rfl eraseFrame [] 1
  simp only [configEchoByte, List.length_cons, List.length_nil, ops]
  rfl

/-- D27 (b): after a write-config frame and a read-config frame the config fixture still answers the operand. -/
theorem configEchoByte_readConfig (eraseFrame : List U8) (c : U8) : configEchoByte eraseFrame [0x18#8, c, 0x20#8] = some c := by
  have ops : wireOps eraseFrame 3 [0x18#8, c, 0x20#8] = [.writeConfig c, .readConfig] := by
    rw [← wireOps_nil eraseFrame 1]
    refine (wireOps_encode_append (i := .writeConfig c) rfl eraseFrame [0x20#8] 2).trans (congrArg _ ?_)
    exact wireOps_encode_append (i := .readConfig) rfl eraseFrame [] 1
  simp only [configEchoByte, List.length_cons, List.length_nil, ops]
  rfl

end Sys2Proof

namespace Sys2Proof.Machine

open Sys2Proof.Trace Sys2Proof.Claims

/-! ### What the fixtures settle of one read byte -/

/-- R52, R103: a byte whose bits a fixture has settled is the byte read, and uses them up. -/
theorem Target.readStep_settled {t : Target} {written : List U8} {v : U8} (cue : t.cueRead written = t.settle (some v)) :
    t.readStep written = (v, { t with answers := [] }) := by
  have taken := Target.take_settled (msbFirst v) [] (t.settle (some v)) (by simp [Target.settle, wireBits_eq])
  rw [show (msbFirst v).length = 8 from rfl] at taken
  rw [Target.readStep, cue, taken, shiftInAll_msbFirst]
  rfl

/-- D27 (a): the round-trip fixture gives the last byte written. -/
theorem Target.readStep_roundTrip {t : Target} (h : t.fixture = .roundTrip) (written : List U8) (x : U8) :
    t.readStep (written ++ [x]) = (x, { t with answers := [] }) :=
  Target.readStep_settled (by simp only [Target.cueRead, h, List.getLast?_concat])

/-- D27 (b): the config fixture gives the byte its record settles. -/
theorem Target.readStep_configEcho {t : Target} (h : t.fixture = .configEcho) {written : List U8} {c : U8}
    (echo : configEchoByte Config.massEraseFrame.bytes written = some c) :
    t.readStep written = (c, { t with answers := [] }) :=
  Target.readStep_settled (by simp only [Target.cueRead, h, echo])

/-! ### Transactions on a fixture that is ready at once -/

/-- R213: a fixture answers the first sample of a handshake 0. -/
theorem Target.cuePoll_fixture {t : Target} (h : t.fixture ≠ .pins) : t.cuePoll = { t with answers := [false] } := by
  unfold Target.cuePoll
  split
  · contradiction
  · rfl

/-- R104, R213: a handshake with a fixture has no busy burst. -/
theorem State.await_fixture {s : State} (k : InFlight) (h : s.target.fixture ≠ .pins) :
    s.await k =
      State.afterReady
        { s.emitAll (switch s.direction .sample ++ handshake 0) with
          direction := .sample, target := { s.target with answers := [] } } k := by
  rw [State.await_eq, Target.cuePoll_fixture h]
  refine (State.poll_settled k 0 0 [] _ rfl).trans ?_
  simp [State.emitAll_eq, handshake, busy]

/-- R160, R213: a transaction with a fixture returns the bytes the fixture settles once the frame is written. -/
theorem exec_transaction_fixture {i : Instr} {frame : List U8} {n : Nat} {fin : Finish} {r : Result} {s : State} {bytes : List U8}
    {t : Target} (is : transactionOf i = some (frame, n, fin, r)) (idle : s.Idle) (on : s.active = true) (ses : s.inSession = true)
    (fixture : s.target.fixture ≠ .pins)
    (reads : Target.readSteps (s.written ++ frame) n { s.target with answers := [] } = (bytes, t)) :
    exec i s = .next ((transacted s frame 0 bytes t s.result).concluded bytes fin) := by
  obtain ⟨-, nonempty, -⟩ := transactionOf_frame i _ _ _ _ is
  obtain ⟨b, frame, rfl⟩ := List.exists_cons_of_ne_nil nonempty
  rw [exec_transaction i _ _ _ _ s is, hostCall_idle _ s idle, transact_accepted _ _ _ _ s on ses,
    State.await_fixture _ (by simpa [State.writeFrame_eq] using fixture), State.afterReady_transaction _ _ _ rfl]
  simp only [State.writeFrame_eq]
  simp only [State.emitAll_eq, clearError, errNone, reads]
  simp [transacted, State.after, pinsAfter, transaction, switch, handshake, SMP]

/-- D27 (b), R160: a transaction of one byte with the config fixture returns the byte its record settles. -/
theorem exec_lastByte_configEcho {i : Instr} {frame : List U8} {r : Result} {s : State} {c : U8}
    (is : transactionOf i = some (frame, 1, .lastByte, r)) (idle : s.Idle) (on : s.active = true) (ses : s.inSession = true)
    (fixture : s.target.fixture = .configEcho)
    (echo : configEchoByte Config.massEraseFrame.bytes (s.written ++ frame) = some c) :
    exec i s =
      .next ((transacted s frame 0 [c] { s.target with answers := [] } s.result).concluded [c] .lastByte) := by
  refine exec_transaction_fixture is idle on ses (by simp [fixture]) ?_
  have gives := Target.readStep_configEcho (t := { s.target with answers := [] }) fixture echo
  simp only [Target.readSteps, gives]

end Sys2Proof.Machine

namespace Sys2Proof.Claims

open Sys2Proof.Machine Sys2Proof.Trace

/-- Settles O57: `writeByte` does not sample, so `readByte` meets the fixture with the byte at the end of its record. -/
theorem roundTripFixtureReturnsTheByte : Obligations.RoundTripFixtureReturnsTheByte := by
  intro x s idle on ses fixture
  have reads := Target.readStep_roundTrip fixture s.written x
  refine ⟨_, _, exec_writeByte_accepted idle on ses x, exec_readByte_active ?_ ?_ reads, rfl, ?_⟩
  · exact idle
  · exact on
  · simp [switch, SMP]

/-- Settles O58: both transactions read the byte their record settles. -/
theorem configFixtureEchoesTheConfiguration : Obligations.ConfigFixtureEchoesTheConfiguration := by
  intro c s idle on ses fixture fresh
  have first := exec_lastByte_configEcho (i := .writeConfig c) rfl idle on ses fixture
    (by rw [fresh]; exact configEchoByte_writeConfig _ c)
  refine ⟨_, _, first, rfl, exec_lastByte_configEcho (c := c) rfl (State.concluded_inFlight _ _ _) ?_ ?_ ?_ ?_, rfl⟩
  · exact on
  · exact ses
  · exact fixture
  · rw [State.concluded_written, transacted, fresh]
    exact configEchoByte_readConfig _ c

end Sys2Proof.Claims
end
